-- ==== Sys2Proof/Word.lean ====
section
/-! DEFINITION. The word types of the goldOS CORE (00_scope.md R3). -/

namespace Sys2Proof

/-- One byte of memory (R20). -/
abbrev Byte := BitVec 8

/-- A register, `pc`, `sp`, an address or an operand field: 32 bits, unsigned (R3, R5). -/
abbrev Word := BitVec 32

/-- A 16-bit opcode value (R40). -/
abbrev Opcode := BitVec 16

/-- The 80-bit value `W` of one instruction, first byte in bits 79:72 (R40). -/
abbrev InstrWord := BitVec 80

end Sys2Proof
end

