-- ==== Sys2Proof/Config.lean ====
section
/-! DEFINITION. The parameters of one instance of the CORE: MEM_SIZE, OPCODE_MAP (00_scope.md R1, R2),
RESERVED_POLICY and EXP_ZERO_ZERO (93_implementation_defined.md I1, I2, I12). The spec calls no value
undefined, so there is no free value here. -/

namespace Sys2Proof

/-- The 32 mnemonics of the instruction set (00_scope.md, section 1), the domain of `OPCODE_MAP`. -/
inductive Mnemonic where
  | ld
  | lc
  | dr
  | cpy
  | or
  | and
  | xor
  | nand
  | nor
  | not
  | add
  | sub
  | mul
  | div
  | exp
  | jmp
  | jmr
  | cmp
  | cmr
  | psh
  | pop
  | movsp
  | call
  | ret
  | gt
  | lt
  | eq
  | ne
  | ge
  | le
  | ldi
  | sti
  deriving DecidableEq, Repr

/-- Every mnemonic once, in the order of the opcode table (R44). -/
def Mnemonic.all : List Mnemonic :=
  [.ld, .lc, .dr, .cpy, .or, .and, .xor, .nand,
   .nor, .not, .add, .sub, .mul, .div, .exp, .jmp,
   .jmr, .cmp, .cmr, .psh, .pop, .movsp, .call, .ret,
   .gt, .lt, .eq, .ne, .ge, .le, .ldi, .sti]

/-- `OPCODE_MAP`, one 16-bit value per mnemonic (R2). The default values stand in `OpcodeMap.default`. -/
structure OpcodeMap where
  ld : Opcode
  lc : Opcode
  dr : Opcode
  cpy : Opcode
  or : Opcode
  and : Opcode
  xor : Opcode
  nand : Opcode
  nor : Opcode
  not : Opcode
  add : Opcode
  sub : Opcode
  mul : Opcode
  div : Opcode
  exp : Opcode
  jmp : Opcode
  jmr : Opcode
  cmp : Opcode
  cmr : Opcode
  psh : Opcode
  pop : Opcode
  movsp : Opcode
  call : Opcode
  ret : Opcode
  gt : Opcode
  lt : Opcode
  eq : Opcode
  ne : Opcode
  ge : Opcode
  le : Opcode
  ldi : Opcode
  sti : Opcode
  deriving DecidableEq, Repr

/-- `OPCODE_MAP(mnemonic)` (R2). -/
def OpcodeMap.get (m : OpcodeMap) : Mnemonic → Opcode
  | .ld => m.ld
  | .lc => m.lc
  | .dr => m.dr
  | .cpy => m.cpy
  | .or => m.or
  | .and => m.and
  | .xor => m.xor
  | .nand => m.nand
  | .nor => m.nor
  | .not => m.not
  | .add => m.add
  | .sub => m.sub
  | .mul => m.mul
  | .div => m.div
  | .exp => m.exp
  | .jmp => m.jmp
  | .jmr => m.jmr
  | .cmp => m.cmp
  | .cmr => m.cmr
  | .psh => m.psh
  | .pop => m.pop
  | .movsp => m.movsp
  | .call => m.call
  | .ret => m.ret
  | .gt => m.gt
  | .lt => m.lt
  | .eq => m.eq
  | .ne => m.ne
  | .ge => m.ge
  | .le => m.le
  | .ldi => m.ldi
  | .sti => m.sti

/-- `RESERVED_POLICY`: what a non-zero reserved byte or unused field does (93_implementation_defined.md I1, I2).
`ignore` is the rule (R42); under `refuse` the decoder refuses the word by name. -/
inductive ReservedPolicy where
  | ignore
  | refuse
  deriving DecidableEq, Repr

/-- The parameters of one instance, fixed for its lifetime (R1, R2; I1, I2, I12). -/
structure Config where
  /-- `MEM_SIZE` in bytes. Its legal range 0..0xFFFFFFFF (R1) is exactly the range of the type. -/
  memSize : Word
  /-- `OPCODE_MAP` (R2). -/
  opcodes : OpcodeMap
  /-- `RESERVED_POLICY`, default `ignore` (I1, I2). -/
  reservedPolicy : ReservedPolicy
  /-- `EXP_ZERO_ZERO`, the value of `0^0` in EXP, default 1 (I12, R71). -/
  expZeroZero : Word
  deriving DecidableEq, Repr

end Sys2Proof
end

