-- ==== Sys2Proof/Syntax.lean ====
section
/-! DEFINITION. The syntax of the instruction set: one constructor per row of spec/opcode_table.json, its
operands as R43 names them, field A before field B. An instruction keeps every bit of its two operand
fields, the ignored ones too (assumption 11), so that decoding loses nothing. -/

namespace Sys2Proof

/-- An operand field that names a register (R40): the index in the field's last byte, and the three
reserved bytes above it. -/
structure RegField where
  /-- `F[31:8]`, ignored under the default policy (R42). -/
  rsv : BitVec 24
  /-- `F[7:0]`, the register index before the clamp (R42). -/
  idx : BitVec 8
  deriving DecidableEq, Repr

/-- The 32 instructions (R43). `unusedA` and `unusedB` are the fields R43 marks unused. -/
inductive Instr where
  /-- LD: register `dst` from the word at absolute address `addr` (R55). -/
  | ld (addr : Word) (dst : RegField)
  /-- LC: register `dst` from the constant `imm` (R56). -/
  | lc (imm : Word) (dst : RegField)
  /-- DR: the word at absolute address `addr` from register `src` (R57). -/
  | dr (src : RegField) (addr : Word)
  /-- CPY: register `dst` from register `src` (R58). -/
  | cpy (src : RegField) (dst : RegField)
  /-- OR: accumulator from registers `ra` and `rb` (R60). -/
  | or (ra : RegField) (rb : RegField)
  /-- AND: accumulator from registers `ra` and `rb` (R61). -/
  | and (ra : RegField) (rb : RegField)
  /-- XOR: accumulator from registers `ra` and `rb` (R62). -/
  | xor (ra : RegField) (rb : RegField)
  /-- NAND: accumulator from registers `ra` and `rb` (R63). -/
  | nand (ra : RegField) (rb : RegField)
  /-- NOR: accumulator from registers `ra` and `rb` (R64). -/
  | nor (ra : RegField) (rb : RegField)
  /-- NOT: accumulator from register `ra` (R65). -/
  | not (ra : RegField) (unusedB : Word)
  /-- ADD: accumulator from registers `ra` and `rb` (R67). -/
  | add (ra : RegField) (rb : RegField)
  /-- SUB: accumulator from registers `ra` and `rb` (R68). -/
  | sub (ra : RegField) (rb : RegField)
  /-- MUL: accumulator from registers `ra` and `rb` (R69). -/
  | mul (ra : RegField) (rb : RegField)
  /-- DIV: accumulator from registers `ra` and `rb` (R70). -/
  | div (ra : RegField) (rb : RegField)
  /-- EXP: accumulator from registers `ra` and `rb` (R71). -/
  | exp (ra : RegField) (rb : RegField)
  /-- JMP: jump to `target` (R73). -/
  | jmp (target : Word) (unusedB : Word)
  /-- JMR: jump by the signed offset `off` (R74). -/
  | jmr (off : Word) (unusedB : Word)
  /-- CMP: jump to `target` if register `cond` is non-zero (R75). -/
  | cmp (cond : RegField) (target : Word)
  /-- CMR: jump by `off` if register `cond` is non-zero (R76). -/
  | cmr (cond : RegField) (off : Word)
  /-- PSH: push register `src` (R78). -/
  | psh (src : RegField) (unusedB : Word)
  /-- POP: pop into register `dst` (R79). -/
  | pop (dst : RegField) (unusedB : Word)
  /-- MOVSP: add the signed offset `off` to `sp` (R80). -/
  | movsp (off : Word) (unusedB : Word)
  /-- CALL: push `pc`, jump to `target` (R81). -/
  | call (target : Word) (unusedB : Word)
  /-- RET: pop `pc` (R82). -/
  | ret (unusedA : Word) (unusedB : Word)
  /-- GT: accumulator from registers `ra` and `rb` (R85). -/
  | gt (ra : RegField) (rb : RegField)
  /-- LT: accumulator from registers `ra` and `rb` (R86). -/
  | lt (ra : RegField) (rb : RegField)
  /-- EQ: accumulator from registers `ra` and `rb` (R87). -/
  | eq (ra : RegField) (rb : RegField)
  /-- NE: accumulator from registers `ra` and `rb` (R88). -/
  | ne (ra : RegField) (rb : RegField)
  /-- GE: accumulator from registers `ra` and `rb` (R89). -/
  | ge (ra : RegField) (rb : RegField)
  /-- LE: accumulator from registers `ra` and `rb` (R90). -/
  | le (ra : RegField) (rb : RegField)
  /-- LDI: register `dst` from the word at the address in register `addr` (R91). -/
  | ldi (addr : RegField) (dst : RegField)
  /-- STI: the word at the address in register `addr` from register `src` (R92). -/
  | sti (src : RegField) (addr : RegField)
  deriving DecidableEq, Repr

/-- The mnemonic of an instruction. -/
def Instr.mnemonic : Instr → Mnemonic
  | .ld _ _ => .ld
  | .lc _ _ => .lc
  | .dr _ _ => .dr
  | .cpy _ _ => .cpy
  | .or _ _ => .or
  | .and _ _ => .and
  | .xor _ _ => .xor
  | .nand _ _ => .nand
  | .nor _ _ => .nor
  | .not _ _ => .not
  | .add _ _ => .add
  | .sub _ _ => .sub
  | .mul _ _ => .mul
  | .div _ _ => .div
  | .exp _ _ => .exp
  | .jmp _ _ => .jmp
  | .jmr _ _ => .jmr
  | .cmp _ _ => .cmp
  | .cmr _ _ => .cmr
  | .psh _ _ => .psh
  | .pop _ _ => .pop
  | .movsp _ _ => .movsp
  | .call _ _ => .call
  | .ret _ _ => .ret
  | .gt _ _ => .gt
  | .lt _ _ => .lt
  | .eq _ _ => .eq
  | .ne _ _ => .ne
  | .ge _ _ => .ge
  | .le _ _ => .le
  | .ldi _ _ => .ldi
  | .sti _ _ => .sti

end Sys2Proof
end

