-- ==== Sys2Proof/WellFormed.lean ====
section
/-! DEFINITION. Well-formed parameters (00_scope.md R2) and well-formed instructions: under the default
RESERVED_POLICY every instruction is well formed ("No operand value makes an instruction illegal", R46);
under `refuse` the reserved bytes and the unused fields must be zero (93_implementation_defined.md I1, I2). -/

namespace Sys2Proof

/-- `OPCODE_MAP` is injective (R2). -/
def OpcodeMap.injective (m : OpcodeMap) : Bool := decide (Mnemonic.all.map m.get).Nodup

/-- `OPCODE_MAP` maps LC to `0x0002` (R2). -/
def OpcodeMap.lcFixed (m : OpcodeMap) : Bool := m.lc == 0x0002

/-- `0x0000` is not in the range of `OPCODE_MAP` (R2). -/
def OpcodeMap.zeroFree (m : OpcodeMap) : Bool := !(Mnemonic.all.map m.get).contains 0x0000

/-- The constraints R2 puts on `OPCODE_MAP`. -/
def Config.wellFormed (c : Config) : Bool :=
  c.opcodes.injective && c.opcodes.lcFixed && c.opcodes.zeroFree

/-- The three reserved bytes of a register field are zero (R40). -/
def RegField.reservedZero (f : RegField) : Bool := f.rsv == 0

/-- The reserved bytes and the unused fields of an instruction are zero (R40, R43). -/
def Instr.reservedZero : Instr → Bool
  | .ld _ dst => dst.reservedZero
  | .lc _ dst => dst.reservedZero
  | .dr src _ => src.reservedZero
  | .cpy src dst => src.reservedZero && dst.reservedZero
  | .or ra rb => ra.reservedZero && rb.reservedZero
  | .and ra rb => ra.reservedZero && rb.reservedZero
  | .xor ra rb => ra.reservedZero && rb.reservedZero
  | .nand ra rb => ra.reservedZero && rb.reservedZero
  | .nor ra rb => ra.reservedZero && rb.reservedZero
  | .not ra unusedB => ra.reservedZero && unusedB == 0
  | .add ra rb => ra.reservedZero && rb.reservedZero
  | .sub ra rb => ra.reservedZero && rb.reservedZero
  | .mul ra rb => ra.reservedZero && rb.reservedZero
  | .div ra rb => ra.reservedZero && rb.reservedZero
  | .exp ra rb => ra.reservedZero && rb.reservedZero
  | .jmp _ unusedB => unusedB == 0
  | .jmr _ unusedB => unusedB == 0
  | .cmp cond _ => cond.reservedZero
  | .cmr cond _ => cond.reservedZero
  | .psh src unusedB => src.reservedZero && unusedB == 0
  | .pop dst unusedB => dst.reservedZero && unusedB == 0
  | .movsp _ unusedB => unusedB == 0
  | .call _ unusedB => unusedB == 0
  | .ret unusedA unusedB => unusedA == 0 && unusedB == 0
  | .gt ra rb => ra.reservedZero && rb.reservedZero
  | .lt ra rb => ra.reservedZero && rb.reservedZero
  | .eq ra rb => ra.reservedZero && rb.reservedZero
  | .ne ra rb => ra.reservedZero && rb.reservedZero
  | .ge ra rb => ra.reservedZero && rb.reservedZero
  | .le ra rb => ra.reservedZero && rb.reservedZero
  | .ldi addr dst => addr.reservedZero && dst.reservedZero
  | .sti src addr => src.reservedZero && addr.reservedZero

/-- What the decoder may answer under the parameters `c`: anything under `ignore` (R42, R46), only zero
reserved bytes and unused fields under `refuse` (I1, I2). -/
def Instr.wellFormed (c : Config) (i : Instr) : Bool :=
  match c.reservedPolicy with
  | .ignore => true
  | .refuse => i.reservedZero

end Sys2Proof
end

