-- ==== Sys2Proof/Decode.lean ====
section
/-! DEFINITION. The default parameters (00_scope.md R1, 30_encoding.md R44), and the decoder and the encoder
(30_encoding.md R40 to R46): an 80-bit instruction word to an instruction, or a rejection by name; and an
instruction back to its word. -/

namespace Sys2Proof

/-- The default `OPCODE_MAP`, the table of R44: only LC's value is the source's, the others are the spec's
decision D1. DESIGN CHOICE (of the spec), unsafe for a real binary: assumption 3. -/
def OpcodeMap.default : OpcodeMap where
  ld := 0x0001
  lc := 0x0002
  dr := 0x0003
  cpy := 0x0004
  or := 0x0005
  and := 0x0006
  xor := 0x0007
  nand := 0x0008
  nor := 0x0009
  not := 0x000A
  add := 0x000B
  sub := 0x000C
  mul := 0x000D
  div := 0x000E
  exp := 0x000F
  jmp := 0x0010
  jmr := 0x0011
  cmp := 0x0012
  cmr := 0x0013
  psh := 0x0014
  pop := 0x0015
  movsp := 0x0016
  call := 0x0017
  ret := 0x0018
  gt := 0x0019
  lt := 0x001A
  eq := 0x001B
  ne := 0x001C
  ge := 0x001D
  le := 0x001E
  ldi := 0x001F
  sti := 0x0020

/-- Every parameter at the spec's default (R1, R44; I1, I12). -/
def Config.default : Config where
  memSize := 0x00100000
  opcodes := OpcodeMap.default
  reservedPolicy := .ignore
  expZeroZero := 1

/-- The default parameters with a memory of `n` bytes. A configuration outside the legal range of R1 is
refused (I3): there is none. -/
def Config.ofMemSize (n : Nat) : Option Config :=
  if n ≤ 0xFFFFFFFF then some { Config.default with memSize := BitVec.ofNat 32 n } else none

/-- Field `F` read as a register field (R40): `F[31:8]` reserved, `F[7:0]` index. -/
def RegField.ofField (f : Word) : RegField := ⟨f.extractLsb' 8 24, f.extractLsb' 0 8⟩

/-- The 32-bit operand field of a register field (R40). -/
def RegField.toField (f : RegField) : Word := f.rsv ++ f.idx

/-- The opcode of an instruction word, `W[79:64]` (R40). -/
def opcodeOf (w : InstrWord) : Opcode := w.extractLsb' 64 16

/-- Operand field A of an instruction word, `W[63:32]` (R40). -/
def fieldA (w : InstrWord) : Word := w.extractLsb' 32 32

/-- Operand field B of an instruction word, `W[31:0]` (R40). -/
def fieldB (w : InstrWord) : Word := w.extractLsb' 0 32

/-- The instruction word with the given opcode and fields (R40). -/
def packWord (op : Opcode) (a b : Word) : InstrWord := op ++ a ++ b

/-- The mnemonic an opcode selects, none if the opcode is unassigned (R44, R45). -/
def OpcodeMap.lookup (m : OpcodeMap) (op : Opcode) : Option Mnemonic :=
  Mnemonic.all.find? fun n => m.get n == op

/-- The instruction a mnemonic and the two operand fields make (R43). -/
def instrOf (m : Mnemonic) (a b : Word) : Instr :=
  match m with
  | .ld => .ld a (.ofField b)
  | .lc => .lc a (.ofField b)
  | .dr => .dr (.ofField a) b
  | .cpy => .cpy (.ofField a) (.ofField b)
  | .or => .or (.ofField a) (.ofField b)
  | .and => .and (.ofField a) (.ofField b)
  | .xor => .xor (.ofField a) (.ofField b)
  | .nand => .nand (.ofField a) (.ofField b)
  | .nor => .nor (.ofField a) (.ofField b)
  | .not => .not (.ofField a) b
  | .add => .add (.ofField a) (.ofField b)
  | .sub => .sub (.ofField a) (.ofField b)
  | .mul => .mul (.ofField a) (.ofField b)
  | .div => .div (.ofField a) (.ofField b)
  | .exp => .exp (.ofField a) (.ofField b)
  | .jmp => .jmp a b
  | .jmr => .jmr a b
  | .cmp => .cmp (.ofField a) b
  | .cmr => .cmr (.ofField a) b
  | .psh => .psh (.ofField a) b
  | .pop => .pop (.ofField a) b
  | .movsp => .movsp a b
  | .call => .call a b
  | .ret => .ret a b
  | .gt => .gt (.ofField a) (.ofField b)
  | .lt => .lt (.ofField a) (.ofField b)
  | .eq => .eq (.ofField a) (.ofField b)
  | .ne => .ne (.ofField a) (.ofField b)
  | .ge => .ge (.ofField a) (.ofField b)
  | .le => .le (.ofField a) (.ofField b)
  | .ldi => .ldi (.ofField a) (.ofField b)
  | .sti => .sti (.ofField a) (.ofField b)

/-- Operand field A of an instruction (R43). -/
def Instr.operandA : Instr → Word
  | .ld addr _ => addr
  | .lc imm _ => imm
  | .dr src _ => src.toField
  | .cpy src _ => src.toField
  | .or ra _ => ra.toField
  | .and ra _ => ra.toField
  | .xor ra _ => ra.toField
  | .nand ra _ => ra.toField
  | .nor ra _ => ra.toField
  | .not ra _ => ra.toField
  | .add ra _ => ra.toField
  | .sub ra _ => ra.toField
  | .mul ra _ => ra.toField
  | .div ra _ => ra.toField
  | .exp ra _ => ra.toField
  | .jmp target _ => target
  | .jmr off _ => off
  | .cmp cond _ => cond.toField
  | .cmr cond _ => cond.toField
  | .psh src _ => src.toField
  | .pop dst _ => dst.toField
  | .movsp off _ => off
  | .call target _ => target
  | .ret unusedA _ => unusedA
  | .gt ra _ => ra.toField
  | .lt ra _ => ra.toField
  | .eq ra _ => ra.toField
  | .ne ra _ => ra.toField
  | .ge ra _ => ra.toField
  | .le ra _ => ra.toField
  | .ldi addr _ => addr.toField
  | .sti src _ => src.toField

/-- Operand field B of an instruction (R43). -/
def Instr.operandB : Instr → Word
  | .ld _ dst => dst.toField
  | .lc _ dst => dst.toField
  | .dr _ addr => addr
  | .cpy _ dst => dst.toField
  | .or _ rb => rb.toField
  | .and _ rb => rb.toField
  | .xor _ rb => rb.toField
  | .nand _ rb => rb.toField
  | .nor _ rb => rb.toField
  | .not _ unusedB => unusedB
  | .add _ rb => rb.toField
  | .sub _ rb => rb.toField
  | .mul _ rb => rb.toField
  | .div _ rb => rb.toField
  | .exp _ rb => rb.toField
  | .jmp _ unusedB => unusedB
  | .jmr _ unusedB => unusedB
  | .cmp _ target => target
  | .cmr _ off => off
  | .psh _ unusedB => unusedB
  | .pop _ unusedB => unusedB
  | .movsp _ unusedB => unusedB
  | .call _ unusedB => unusedB
  | .ret _ unusedB => unusedB
  | .gt _ rb => rb.toField
  | .lt _ rb => rb.toField
  | .eq _ rb => rb.toField
  | .ne _ rb => rb.toField
  | .ge _ rb => rb.toField
  | .le _ rb => rb.toField
  | .ldi _ dst => dst.toField
  | .sti _ addr => addr.toField

/-- Why a word is rejected. -/
inductive DecodeError where
  /-- The opcode is not in the range of `OPCODE_MAP` (R45): the dispatcher halts with UnknownOpcode (R51). -/
  | unknownOpcode (op : Opcode)
  /-- A reserved byte or an unused field is not zero, under RESERVED_POLICY `refuse` only (I1, I2). -/
  | reservedBits (m : Mnemonic)
  deriving DecidableEq, Repr

/-- The decoder with the opcode lookup (R41, R44, R45, R51) and the reserved-byte policy (I1, I2). -/
def decode (c : Config) (w : InstrWord) : Except DecodeError Instr :=
  match c.opcodes.lookup (opcodeOf w) with
  | none => .error (.unknownOpcode (opcodeOf w))
  | some m =>
    if (instrOf m (fieldA w) (fieldB w)).wellFormed c then .ok (instrOf m (fieldA w) (fieldB w))
    else .error (.reservedBits m)

/-- The ten bytes of an instruction as its word, first byte most significant (R25, R40). Any other number
of bytes is no instruction (R39). -/
def wordOfBytes : List Byte → Option InstrWord
  | [b0, b1, b2, b3, b4, b5, b6, b7, b8, b9] =>
    some (packWord (b0 ++ b1) (b2 ++ b3 ++ b4 ++ b5) (b6 ++ b7 ++ b8 ++ b9))
  | _ => none

/-- Why a list of bytes is rejected. -/
inductive BytesError where
  /-- The list does not hold exactly ten bytes (R39). -/
  | wrongLength (n : Nat)
  /-- The ten bytes are rejected as a word. -/
  | word (e : DecodeError)
  deriving DecidableEq, Repr

/-- The decoder on bytes, total on any list (R39, R41). -/
def decodeBytes (c : Config) (bs : List Byte) : Except BytesError Instr :=
  match wordOfBytes bs with
  | none => .error (.wrongLength bs.length)
  | some w =>
    match decode c w with
    | .ok i => .ok i
    | .error e => .error (.word e)

/-- The instruction word of an instruction (R40, R43, R44). -/
def encode (c : Config) (i : Instr) : InstrWord :=
  packWord (c.opcodes.get i.mnemonic) i.operandA i.operandB

/-- Byte `k` (0 the first in memory) of an instruction word (R40). -/
def wordByte (w : InstrWord) (k : Nat) : Byte := w.extractLsb' (8 * (9 - k)) 8

/-- The ten bytes of an instruction word in memory order (R25, R40). -/
def bytesOfWord (w : InstrWord) : List Byte := (List.range 10).map (wordByte w)

/-- The ten bytes of an instruction in memory order. -/
def encodeBytes (c : Config) (i : Instr) : List Byte := bytesOfWord (encode c i)

/-- The instruction word whose leading `nbits` bits, as spec/opcode_table.json numbers them (one big-endian
number, opcode in its top bits), are `w`, every later bit zero. With the table's 80 bits it is `w` itself.
DESIGN CHOICE for a shorter `nbits`: assumption 8. -/
def tableWord (nbits w : Nat) : InstrWord := BitVec.ofNat 80 (w % 2 ^ nbits * 2 ^ (80 - nbits))

/-- The instruction the decoder reads from a table word, under the default parameters. -/
def decodeTableWord (nbits w : Nat) : Option Instr :=
  match decodeBytes Config.default (bytesOfWord (tableWord nbits w)) with
  | .ok i => some i
  | .error _ => none

end Sys2Proof
end

