-- ==== Sys2Proof/Machine/State.lean ====
section
/-! DEFINITION. The state of the CORE as plain data (10_state.md R4 to R22), the reasons a transaction can
stop, and the state after reset (70_reset_and_hazards.md R109). -/

namespace Sys2Proof.Machine

open Sys2Proof

/-- The memory: the bytes that differ from the reset contents `0x00` (R20), as (address, byte) pairs with
addresses strictly rising. An address that is not listed reads as `0x00` (R20, R32; assumption 9). -/
abbrev Memory := List Host.Cell

/-- The dispatcher state (R18). -/
inductive RunState where
  | running
  | halted
  deriving DecidableEq, Repr

/-- Why the dispatcher halted (R19, R93); the codes are `HaltReason.code`. -/
inductive HaltReason where
  | none
  | endOfProgram
  | memoryFault
  | unknownOpcode
  deriving DecidableEq, Repr

/-- The halt record (R19). -/
structure HaltRecord where
  /-- `halt_reason`. -/
  reason : HaltReason
  /-- `halt_opcode`. -/
  opcode : Opcode
  /-- `halt_addr`. -/
  addr : Word
  /-- `fault_addr`. -/
  faultAddr : Word
  deriving DecidableEq, Repr

/-- The halt record while the dispatcher runs: every field at its reset value (R19). -/
def HaltRecord.clear : HaltRecord := ⟨.none, 0x0000, 0x00000000, 0x00000000⟩

/-- The state of the CORE: exactly the list of R4, and beside it the parameters of the instance. -/
structure State where
  /-- The parameters (R1, R2; I1, I2, I12). The MODEL's own field: nothing writes it (assumption 1). -/
  cfg : Config
  /-- `x[0]` to `x[15]`; `x[15]` is the accumulator (R5, R6). -/
  regs : Vector Word 16
  /-- The program counter (R11). -/
  pc : Word
  /-- The stack pointer (R14). -/
  sp : Word
  /-- The dispatcher state (R18). -/
  run : RunState
  /-- The halt record (R19). -/
  halt : HaltRecord
  /-- The memory (R20, R23). -/
  mem : Memory
  deriving DecidableEq, Repr

/-- What the host's ports can report as a fault. No step and no instruction answers with one: a MemoryFault
or an UnknownOpcode of a program is a next state, Halted, with the halt record written (R49, R51, R52). -/
inductive Fault where
  /-- The port `load`: the block does not fit, "reports MemoryFault to the host and writes no byte" (R30).
  Raised by `portLoad` only. Safe: it is what the rule says. -/
  | hostLoad (offset : Word) (length : Nat)
  deriving DecidableEq, Repr

/-- What the model refuses. -/
inductive Refusal where
  /-- An instruction without a meaning. Raised by no arm of `exec`: every instruction has its meaning.
  Safe. -/
  | notModelled (mnemonic : String)
  /-- A word with a non-zero reserved byte or unused field under RESERVED_POLICY `refuse`, "the decoder
  refuses the word by name" (I1, I2). Raised by `step` only, never under the default policy. Safe. -/
  | reservedBits (m : Mnemonic)
  /-- The port `load` after the first step: no meaning is given to it (D16, I13). Raised by `portLoad`
  only. Safe. -/
  | loadAfterFirstStep
  /-- The port `read_mem` outside `[0, MEM_SIZE)`: "refused otherwise" (R113). Raised by `portReadMem`
  only. Safe. -/
  | readOutOfRange (addr length : Nat)
  deriving DecidableEq, Repr

/-- The state after reset of an instance with the parameters `c` (R109). -/
def State.resetWith (c : Config) : State where
  cfg := c
  regs := Vector.replicate 16 0x00000000
  pc := 0x00000000
  sp := c.memSize
  run := .running
  halt := HaltRecord.clear
  mem := []

/-- The state after reset with every parameter at the spec's default (R109, R1, R44). -/
def State.reset : State := State.resetWith Config.default

end Sys2Proof.Machine
end

