-- ==== Sys2Proof/Machine/Ops.lean ====
section
/-! DEFINITION. The operations every instruction is made of: memory bytes and words (20_memory.md), the
register file (10_state.md R5 to R8), the fetch (30_encoding.md R49, R50), the halt entry (60_exceptions.md
R93 to R101), and the bounds-checked load, store, push and pop. There is no return from a halt (R102): only
reset leaves it. -/

namespace Sys2Proof.Machine

open Sys2Proof Host

/-! ### Memory bytes -/

/-- What an address that is not listed reads as: the reset contents (R20). -/
def Memory.unlisted : Byte := 0x00

/-- The canonical form: addresses strictly rising, and no entry equal to what an unlisted address reads as. -/
def Memory.wf (m : Memory) : Bool :=
  decide (m.Pairwise fun c d => c.1 < d.1) && m.all fun c => c.2 != Memory.unlisted

/-- Every listed address lies in `[0, size)` (R20, R23). -/
def Memory.within (size : Nat) (m : Memory) : Bool := m.all fun c => decide (c.1 < size)

/-- The byte at an address (R32). -/
def Memory.read : Memory → Nat → Byte
  | [], _ => Memory.unlisted
  | (k, v) :: rest, a => if k = a then v else Memory.read rest a

/-- The memory without an entry for `a`. -/
def Memory.erase (m : Memory) (a : Nat) : Memory := m.filter fun c => c.1 != a

/-- An entry put before the first entry of a higher address. -/
def Memory.insert : Memory → Nat → Byte → Memory
  | [], a, v => [(a, v)]
  | (k, w) :: rest, a, v =>
    if a < k then (a, v) :: (k, w) :: rest else (k, w) :: Memory.insert rest a v

/-- `M[a] <- v`, keeping the canonical form (R24, R32). -/
def Memory.write (m : Memory) (a : Nat) (v : Byte) : Memory :=
  if v = Memory.unlisted then m.erase a else (m.erase a).insert a v

/-! ### Memory words and blocks, big-endian (R24, R25) -/

/-- `MemRead(a, 4)` after the bounds check (R24). -/
def Memory.readWord (m : Memory) (a : Nat) : Word :=
  m.read a ++ m.read (a + 1) ++ m.read (a + 2) ++ m.read (a + 3)

/-- `MemWrite(a, 4, v)` after the bounds check (R24). -/
def Memory.writeWord (m : Memory) (a : Nat) (v : Word) : Memory :=
  (((m.write a (v.extractLsb' 24 8)).write (a + 1) (v.extractLsb' 16 8)).write (a + 2)
    (v.extractLsb' 8 8)).write (a + 3) (v.extractLsb' 0 8)

/-- The 80-bit instruction word at `a` (R25, R40). -/
def Memory.readInstr (m : Memory) (a : Nat) : InstrWord :=
  packWord (m.read a ++ m.read (a + 1)) (m.readWord (a + 2)) (m.readWord (a + 6))

/-- `M[a + k] <- bytes[k]` for every byte of the block (R30). -/
def Memory.writeBytes (m : Memory) (a : Nat) : List Byte → Memory
  | [] => m
  | b :: bs => Memory.writeBytes (m.write a b) (a + 1) bs

/-- The bytes `M[a]` to `M[a + n - 1]`. -/
def Memory.readBytes (m : Memory) (a n : Nat) : List Byte := (List.range n).map fun k => m.read (a + k)

/-! ### The register file, `pc` and `sp` -/

/-- `x[i]` (R5). -/
def State.readReg (s : State) (i : Fin 16) : Word := s.regs[i]

/-- `x[i] <- v` (R5). -/
def State.writeReg (s : State) (i : Fin 16) (v : Word) : State := { s with regs := s.regs.set i v }

/-- `acc <- v`, the only way any rule writes `x[15]` (R8). -/
def State.writeAcc (s : State) (v : Word) : State := s.writeReg 15 v

/-- `pc <- v` (R13). -/
def State.writePc (s : State) (v : Word) : State := { s with pc := v }

/-- `sp <- v` (R15). -/
def State.writeSp (s : State) (v : Word) : State := { s with sp := v }

/-- The memory replaced. -/
def State.writeMem (s : State) (m : Memory) : State := { s with mem := m }

/-! ### Bounds, on mathematical integers (R26, R49) -/

/-- `n` bytes at `a` lie in memory: `a + n <= MEM_SIZE` (R26, R30, R49; the spec's decision D6). -/
abbrev State.fits (s : State) (a : Word) (n : Nat) : Prop := a.toNat + n ≤ s.cfg.memSize.toNat

/-- A 4-byte data access at `a` is legal (R26). -/
abbrev State.wordFits (s : State) (a : Word) : Prop := s.fits a 4

/-- The 10-byte fetch at `pc` fits (R49). -/
abbrev State.fetchFits (s : State) : Prop := s.fits s.pc 10

/-! ### Fetch (R49, R50) -/

/-- The instruction word at `pc` (R25, R50). -/
def State.fetchWord (s : State) : InstrWord := s.mem.readInstr s.pc.toNat

/-- `pc <- ia + 10`, the advance that belongs to the fetch (R50, R53). -/
def State.advancePc (s : State) : State := s.writePc (s.pc + 10)

/-- The address `ia` of the instruction being executed: `pc` already holds `ia + 10` (R11, R50). -/
def State.instrAddr (s : State) : Word := s.pc - 10

/-- The instruction word stored where the next fetch reads it. -/
def State.storeInstr (s : State) (w : InstrWord) : State :=
  s.writeMem (s.mem.writeBytes s.pc.toNat (bytesOfWord w))

/-! ### Halt entry (R101): one operation, and the three conditions over it -/

/-- The 2-bit code of `halt_reason` (R19, R93; the spec's decision D10). -/
def HaltReason.code : HaltReason → BitVec 2
  | .none => 0
  | .endOfProgram => 1
  | .memoryFault => 2
  | .unknownOpcode => 3

/-- `halt(reason)`: `run <- Halted` and the halt record written; nothing else changes (R101). -/
def State.enterHalt (s : State) (r : HaltRecord) : State := { s with run := .halted, halt := r }

/-- EndOfProgram at the fetch check, `pc` still `ia` (R49, R96). -/
def State.haltEndOfProgram (s : State) : State := s.enterHalt ⟨.endOfProgram, 0x0000, s.pc, 0x00000000⟩

/-- UnknownOpcode after the fetch, `pc` already `ia + 10` (R51, R95). -/
def State.haltUnknownOpcode (s : State) (op : Opcode) : State :=
  s.enterHalt ⟨.unknownOpcode, op, s.instrAddr, 0x00000000⟩

/-- `raise MemoryFault(a)` in instruction `m`: no effect of its own, and the dispatcher halts (R52, R94). -/
def State.haltMemoryFault (s : State) (m : Mnemonic) (a : Word) : State :=
  s.enterHalt ⟨.memoryFault, s.cfg.opcodes.get m, s.instrAddr, a⟩

/-! ### Data accesses: the check, then every write (R26, R53) -/

/-- Instruction `m` reads the word at `a`; `k` is what it does with the word (R26, R53, R94). -/
def State.load (s : State) (m : Mnemonic) (a : Word) (k : Word → State) : Outcome State Fault Refusal :=
  if s.wordFits a then .next (k (s.mem.readWord a.toNat)) else .next (s.haltMemoryFault m a)

/-- Instruction `m` writes the word `v` at `a`; `k` is what it does beside the store (R26, R53, R94). -/
def State.store (s : State) (m : Mnemonic) (a v : Word) (k : State → State) :
    Outcome State Fault Refusal :=
  if s.wordFits a then .next (k (s.writeMem (s.mem.writeWord a.toNat v)))
  else .next (s.haltMemoryFault m a)

/-- The slot a push stores to: `(sp - 4) mod 2^32` (R15, R77, R78). -/
def State.pushAddr (s : State) : Word := s.sp - 4

/-- A push by instruction `m`: check, store at `sp - 4`, then `sp <- sp - 4`, then `k` (R77, R78, R81). -/
def State.push (s : State) (m : Mnemonic) (v : Word) (k : State → State) : Outcome State Fault Refusal :=
  s.store m s.pushAddr v fun t => k (t.writeSp s.pushAddr)

/-- A pop by instruction `m`: check and read at `sp`, then `sp <- sp + 4`; `k` is what it does with the
word (R77, R79, R82). -/
def State.pop (s : State) (m : Mnemonic) (k : Word → State → State) : Outcome State Fault Refusal :=
  s.load m s.sp fun v => k v (s.writeSp (s.sp + 4))

/-- The memory unit's `read_signed_word(a)`, none when the bounds check fails (R29). No instruction uses it. -/
def State.readSignedWord (s : State) (a : Word) : Option Int :=
  if s.wordFits a then some (s.mem.readWord a.toNat).toInt else none

end Sys2Proof.Machine
end

