-- ==== Sys2Proof/Machine/Operands.lean ====
section
/-! DEFINITION. The operand forms of R42: `Reg(F)` with the clamp of 10_state.md R7, and `Off(F)` added to a
32-bit register. `Addr(F)` and `Imm(F)` are the field itself. -/

namespace Sys2Proof.Machine

open Sys2Proof

/-- `clamp(i) = min(i, 14)` (R7). -/
def clamp (i : BitVec 8) : Fin 16 := ⟨min i.toNat 14, by omega⟩

/-- `Reg(F) = clamp(F[7:0])`; the reserved bytes take no part (R42). -/
def regIndex (f : RegField) : Fin 16 := clamp f.idx

/-- `x[Reg(F)]` (R42, R43). -/
def State.regOperand (s : State) (f : RegField) : Word := s.readReg (regIndex f)

/-- `x[Reg(F)] <- v` (R42, R43). -/
def State.writeRegOperand (s : State) (f : RegField) (v : Word) : State := s.writeReg (regIndex f) v

/-- `Off(F) = sext_32(F)` (R42; two's complement is the spec's passage G2). -/
def offset (f : Word) : Int := f.toInt

/-- `(base + sext_32(F)) mod 2^32` (R13, R15). -/
def addOffset (base f : Word) : Word := BitVec.ofInt 32 ((base.toNat : Int) + offset f)

/-- A register field with its reserved bytes zero and its index clamped: the field that R7 and R42 say acts
the same. -/
def canonicalField (f : RegField) : RegField := ⟨0, BitVec.ofNat 8 (regIndex f).val⟩

/-- An instruction with every register field canonical and every unused field zero: the instruction that R7
and R42 say acts the same. -/
def canonicalInstr : Instr → Instr
  | .ld addr dst => .ld addr (canonicalField dst)
  | .lc imm dst => .lc imm (canonicalField dst)
  | .dr src addr => .dr (canonicalField src) addr
  | .cpy src dst => .cpy (canonicalField src) (canonicalField dst)
  | .or ra rb => .or (canonicalField ra) (canonicalField rb)
  | .and ra rb => .and (canonicalField ra) (canonicalField rb)
  | .xor ra rb => .xor (canonicalField ra) (canonicalField rb)
  | .nand ra rb => .nand (canonicalField ra) (canonicalField rb)
  | .nor ra rb => .nor (canonicalField ra) (canonicalField rb)
  | .not ra _ => .not (canonicalField ra) 0
  | .add ra rb => .add (canonicalField ra) (canonicalField rb)
  | .sub ra rb => .sub (canonicalField ra) (canonicalField rb)
  | .mul ra rb => .mul (canonicalField ra) (canonicalField rb)
  | .div ra rb => .div (canonicalField ra) (canonicalField rb)
  | .exp ra rb => .exp (canonicalField ra) (canonicalField rb)
  | .jmp target _ => .jmp target 0
  | .jmr off _ => .jmr off 0
  | .cmp cond target => .cmp (canonicalField cond) target
  | .cmr cond off => .cmr (canonicalField cond) off
  | .psh src _ => .psh (canonicalField src) 0
  | .pop dst _ => .pop (canonicalField dst) 0
  | .movsp off _ => .movsp off 0
  | .call target _ => .call target 0
  | .ret _ _ => .ret 0 0
  | .gt ra rb => .gt (canonicalField ra) (canonicalField rb)
  | .lt ra rb => .lt (canonicalField ra) (canonicalField rb)
  | .eq ra rb => .eq (canonicalField ra) (canonicalField rb)
  | .ne ra rb => .ne (canonicalField ra) (canonicalField rb)
  | .ge ra rb => .ge (canonicalField ra) (canonicalField rb)
  | .le ra rb => .le (canonicalField ra) (canonicalField rb)
  | .ldi addr dst => .ldi (canonicalField addr) (canonicalField dst)
  | .sti src addr => .sti (canonicalField src) (canonicalField addr)

end Sys2Proof.Machine
end

