-- ==== Sys2Proof/Machine/Arithmetic.lean ====
section
/-! DEFINITION. The arithmetic instructions (43_arithmetic.md R66 to R71): unsigned, reduced mod 2^32, to the accumulator. -/

namespace Sys2Proof.Machine

open Sys2Proof Host

/-- `(r + s) mod 2^32` (R67). -/
def sumWord (r s : Word) : Word := BitVec.ofNat 32 (r.toNat + s.toNat)

/-- `(r - s) mod 2^32` (R68). -/
def differenceWord (r s : Word) : Word := BitVec.ofInt 32 ((r.toNat : Int) - (s.toNat : Int))

/-- `(r * s) mod 2^32` (R69). -/
def productWord (r s : Word) : Word := BitVec.ofNat 32 (r.toNat * s.toNat)

/-- `floor(r / s)` with a zero divisor read as 1 (R70, R97). -/
def quotientWord (r s : Word) : Word :=
  BitVec.ofNat 32 (r.toNat / (if s = 0 then 1 else s.toNat))

/-- `base ^ e mod 2^32` for an exponent `e` of at most `bits` bits, by squaring (R71: "any evaluation order
gives the same value"). -/
def powerBySquaring : (bits : Nat) → (base : Word) → (e : Nat) → Word
  | 0, _, _ => 1
  | bits + 1, base, e =>
    productWord (if e % 2 = 1 then base else 1) (powerBySquaring bits (productWord base base) (e / 2))

/-- `r^s mod 2^32`, with EXP_ZERO_ZERO for `0^0` (R71; I12). -/
def powerWord (zeroZero r s : Word) : Word :=
  if r = 0 ∧ s = 0 then zeroZero else powerBySquaring 32 r s.toNat

/-- ADD (R66, R67). -/
def execAdd (a b : RegField) (s : State) : Outcome State Fault Refusal :=
  .next (s.writeAcc (sumWord (s.regOperand a) (s.regOperand b)))

/-- SUB (R66, R68). -/
def execSub (a b : RegField) (s : State) : Outcome State Fault Refusal :=
  .next (s.writeAcc (differenceWord (s.regOperand a) (s.regOperand b)))

/-- MUL (R66, R69). -/
def execMul (a b : RegField) (s : State) : Outcome State Fault Refusal :=
  .next (s.writeAcc (productWord (s.regOperand a) (s.regOperand b)))

/-- DIV (R66, R70). -/
def execDiv (a b : RegField) (s : State) : Outcome State Fault Refusal :=
  .next (s.writeAcc (quotientWord (s.regOperand a) (s.regOperand b)))

/-- EXP (R66, R71). -/
def execExp (a b : RegField) (s : State) : Outcome State Fault Refusal :=
  .next (s.writeAcc (powerWord s.cfg.expZeroZero (s.regOperand a) (s.regOperand b)))

end Sys2Proof.Machine
end

