-- ==== Sys2Proof/Machine/Bitwise.lean ====
section
/-! DEFINITION. The bitwise instructions (42_bitwise.md R59 to R65): every result goes to the accumulator. -/

namespace Sys2Proof.Machine

open Sys2Proof Host

/-- OR: `acc <- r | s` (R59, R60). -/
def execOr (a b : RegField) (s : State) : Outcome State Fault Refusal :=
  .next (s.writeAcc (s.regOperand a ||| s.regOperand b))

/-- AND: `acc <- r & s` (R59, R61). -/
def execAnd (a b : RegField) (s : State) : Outcome State Fault Refusal :=
  .next (s.writeAcc (s.regOperand a &&& s.regOperand b))

/-- XOR: `acc <- r ^ s` (R59, R62). -/
def execXor (a b : RegField) (s : State) : Outcome State Fault Refusal :=
  .next (s.writeAcc (s.regOperand a ^^^ s.regOperand b))

/-- NAND: `acc <- ~(r & s)`, masked to 32 bits by the type (R59, R63). -/
def execNand (a b : RegField) (s : State) : Outcome State Fault Refusal :=
  .next (s.writeAcc (~~~(s.regOperand a &&& s.regOperand b)))

/-- NOR: `acc <- ~(r | s)`, masked to 32 bits by the type (R59, R64). -/
def execNor (a b : RegField) (s : State) : Outcome State Fault Refusal :=
  .next (s.writeAcc (~~~(s.regOperand a ||| s.regOperand b)))

/-- NOT: `acc <- ~r`, masked to 32 bits by the type; field B is unused (R59, R65). -/
def execNot (a : RegField) (_unusedB : Word) (s : State) : Outcome State Fault Refusal :=
  .next (s.writeAcc (~~~(s.regOperand a)))

end Sys2Proof.Machine
end

