-- ==== Sys2Proof/Machine/CallReturn.lean ====
section
/-! DEFINITION. Call and return (46_call_return.md R81 to R83). -/

namespace Sys2Proof.Machine

open Sys2Proof Host

/-- CALL: push the advanced `pc`, then `pc <- A`; field B is unused (R81). -/
def execCall (target _unusedB : Word) (s : State) : Outcome State Fault Refusal :=
  s.push .call s.pc fun t => t.writePc target

/-- RET: pop `pc`; both fields are unused (R82). -/
def execRet (_unusedA _unusedB : Word) (s : State) : Outcome State Fault Refusal :=
  s.pop .ret fun v t => t.writePc v

end Sys2Proof.Machine
end

