-- ==== Sys2Proof/Machine/Flags.lean ====
section
/-! DEFINITION. The CORE has no status flags and no condition codes (10_state.md R16). What stands in for them: the truth
word a comparison delivers (47_comparison.md R84) and the test a conditional branch makes (R72). -/

namespace Sys2Proof.Machine

open Sys2Proof Host

/-- `B(c)`: all ones for true, all zeros for false (R84). -/
def truthWord (c : Bool) : Word := if c then 0xFFFFFFFF else 0x00000000

/-- The condition of CMP and CMR: the register is non-zero (R75, R76). -/
def conditionHolds (v : Word) : Bool := v != 0

end Sys2Proof.Machine
end

