-- ==== Sys2Proof/Machine/Comparison.lean ====
section
/-! DEFINITION. The comparison instructions (47_comparison.md R84 to R90): unsigned, the truth word to the accumulator. -/

namespace Sys2Proof.Machine

open Sys2Proof Host

/-- GT: `acc <- (r > s) ? 0xFFFFFFFF : 0` (R84, R85). -/
def execGt (a b : RegField) (s : State) : Outcome State Fault Refusal :=
  .next (s.writeAcc (truthWord (decide (s.regOperand b < s.regOperand a))))

/-- LT: `acc <- (r < s) ? 0xFFFFFFFF : 0` (R84, R86). -/
def execLt (a b : RegField) (s : State) : Outcome State Fault Refusal :=
  .next (s.writeAcc (truthWord (decide (s.regOperand a < s.regOperand b))))

/-- EQ: `acc <- (r = s) ? 0xFFFFFFFF : 0` (R84, R87). -/
def execEq (a b : RegField) (s : State) : Outcome State Fault Refusal :=
  .next (s.writeAcc (truthWord (decide (s.regOperand a = s.regOperand b))))

/-- NE: `acc <- (r != s) ? 0xFFFFFFFF : 0` (R84, R88). -/
def execNe (a b : RegField) (s : State) : Outcome State Fault Refusal :=
  .next (s.writeAcc (truthWord (decide (s.regOperand a ≠ s.regOperand b))))

/-- GE: `acc <- (r >= s) ? 0xFFFFFFFF : 0` (R84, R89). -/
def execGe (a b : RegField) (s : State) : Outcome State Fault Refusal :=
  .next (s.writeAcc (truthWord (decide (s.regOperand b ≤ s.regOperand a))))

/-- LE: `acc <- (r <= s) ? 0xFFFFFFFF : 0` (R84, R90). -/
def execLe (a b : RegField) (s : State) : Outcome State Fault Refusal :=
  .next (s.writeAcc (truthWord (decide (s.regOperand a ≤ s.regOperand b))))

end Sys2Proof.Machine
end

