-- ==== Sys2Proof/Machine/ControlFlow.lean ====
section
/-! DEFINITION. The control-flow instructions (44_control_flow.md R72 to R76): `pc` already holds `ia + 10`, and a branch
not taken leaves it so. -/

namespace Sys2Proof.Machine

open Sys2Proof Host

/-- JMP: `pc <- A`; field B is unused (R73). -/
def execJmp (target _unusedB : Word) (s : State) : Outcome State Fault Refusal :=
  .next (s.writePc target)

/-- JMR: `pc <- (pc + sext_32(A)) mod 2^32`; field B is unused (R74). -/
def execJmr (off _unusedB : Word) (s : State) : Outcome State Fault Refusal :=
  .next (s.writePc (addOffset s.pc off))

/-- CMP: if `x[Reg(A)] != 0` then `pc <- B` (R75). -/
def execCmp (cond : RegField) (target : Word) (s : State) : Outcome State Fault Refusal :=
  .next (if conditionHolds (s.regOperand cond) then s.writePc target else s)

/-- CMR: if `x[Reg(A)] != 0` then `pc <- (pc + sext_32(B)) mod 2^32` (R76). -/
def execCmr (cond : RegField) (off : Word) (s : State) : Outcome State Fault Refusal :=
  .next (if conditionHolds (s.regOperand cond) then s.writePc (addOffset s.pc off) else s)

end Sys2Proof.Machine
end

