-- ==== Sys2Proof/Machine/DataMovement.lean ====
section
/-! DEFINITION. The data movement instructions (41_data_movement.md R55 to R58). -/

namespace Sys2Proof.Machine

open Sys2Proof Host

/-- LD: `x[Reg(B)] <- MemRead(A, 4)` (R55). -/
def execLd (addr : Word) (dst : RegField) (s : State) : Outcome State Fault Refusal :=
  s.load .ld addr fun v => s.writeRegOperand dst v

/-- LC: `x[Reg(B)] <- A` (R56). -/
def execLc (imm : Word) (dst : RegField) (s : State) : Outcome State Fault Refusal :=
  .next (s.writeRegOperand dst imm)

/-- DR: `MemWrite(B, 4, x[Reg(A)])` (R57). -/
def execDr (src : RegField) (addr : Word) (s : State) : Outcome State Fault Refusal :=
  s.store .dr addr (s.regOperand src) id

/-- CPY: `x[Reg(B)] <- x[Reg(A)]` (R58). -/
def execCpy (src dst : RegField) (s : State) : Outcome State Fault Refusal :=
  .next (s.writeRegOperand dst (s.regOperand src))

end Sys2Proof.Machine
end

