-- ==== Sys2Proof/Machine/IndirectMemory.lean ====
section
/-! DEFINITION. The register-indirect instructions (48_indirect_memory.md R91, R92). -/

namespace Sys2Proof.Machine

open Sys2Proof Host

/-- LDI: `x[Reg(B)] <- MemRead(x[Reg(A)], 4)` (R91). -/
def execLdi (addr dst : RegField) (s : State) : Outcome State Fault Refusal :=
  s.load .ldi (s.regOperand addr) fun v => s.writeRegOperand dst v

/-- STI: `MemWrite(x[Reg(B)], 4, x[Reg(A)])` (R92). -/
def execSti (src addr : RegField) (s : State) : Outcome State Fault Refusal :=
  s.store .sti (s.regOperand addr) (s.regOperand src) id

end Sys2Proof.Machine
end

