-- ==== Sys2Proof/Machine/Stack.lean ====
section
/-! DEFINITION. The stack instructions (45_stack.md R77 to R80). -/

namespace Sys2Proof.Machine

open Sys2Proof Host

/-- PSH: push `x[Reg(A)]`; field B is unused (R78). -/
def execPsh (src : RegField) (_unusedB : Word) (s : State) : Outcome State Fault Refusal :=
  s.push .psh (s.regOperand src) id

/-- POP: pop into `x[Reg(A)]`; field B is unused (R79). -/
def execPop (dst : RegField) (_unusedB : Word) (s : State) : Outcome State Fault Refusal :=
  s.pop .pop fun v t => t.writeRegOperand dst v

/-- MOVSP: `sp <- (sp + sext_32(A)) mod 2^32`, no memory access; field B is unused (R80). -/
def execMovsp (off _unusedB : Word) (s : State) : Outcome State Fault Refusal :=
  .next (s.writeSp (addOffset s.sp off))

end Sys2Proof.Machine
end

