-- ==== Sys2Proof/Machine/Dispatch.lean ====
section
/-! DEFINITION. The dispatch of an instruction to its meaning, one arm per constructor (30_encoding.md R52).
The state given to `exec` is the one after the fetch: `pc` already holds `ia + 10` (R50; assumption 13). -/

namespace Sys2Proof.Machine

open Sys2Proof

def exec (i : Instr) (s : State) : Host.Outcome State Fault Refusal :=
  match i with
  | .ld addr dst => Sys2Proof.Machine.execLd addr dst s
  | .lc imm dst => Sys2Proof.Machine.execLc imm dst s
  | .dr src addr => Sys2Proof.Machine.execDr src addr s
  | .cpy src dst => Sys2Proof.Machine.execCpy src dst s
  | .or ra rb => Sys2Proof.Machine.execOr ra rb s
  | .and ra rb => Sys2Proof.Machine.execAnd ra rb s
  | .xor ra rb => Sys2Proof.Machine.execXor ra rb s
  | .nand ra rb => Sys2Proof.Machine.execNand ra rb s
  | .nor ra rb => Sys2Proof.Machine.execNor ra rb s
  | .not ra unusedB => Sys2Proof.Machine.execNot ra unusedB s
  | .add ra rb => Sys2Proof.Machine.execAdd ra rb s
  | .sub ra rb => Sys2Proof.Machine.execSub ra rb s
  | .mul ra rb => Sys2Proof.Machine.execMul ra rb s
  | .div ra rb => Sys2Proof.Machine.execDiv ra rb s
  | .exp ra rb => Sys2Proof.Machine.execExp ra rb s
  | .jmp target unusedB => Sys2Proof.Machine.execJmp target unusedB s
  | .jmr off unusedB => Sys2Proof.Machine.execJmr off unusedB s
  | .cmp cond target => Sys2Proof.Machine.execCmp cond target s
  | .cmr cond off => Sys2Proof.Machine.execCmr cond off s
  | .psh src unusedB => Sys2Proof.Machine.execPsh src unusedB s
  | .pop dst unusedB => Sys2Proof.Machine.execPop dst unusedB s
  | .movsp off unusedB => Sys2Proof.Machine.execMovsp off unusedB s
  | .call target unusedB => Sys2Proof.Machine.execCall target unusedB s
  | .ret unusedA unusedB => Sys2Proof.Machine.execRet unusedA unusedB s
  | .gt ra rb => Sys2Proof.Machine.execGt ra rb s
  | .lt ra rb => Sys2Proof.Machine.execLt ra rb s
  | .eq ra rb => Sys2Proof.Machine.execEq ra rb s
  | .ne ra rb => Sys2Proof.Machine.execNe ra rb s
  | .ge ra rb => Sys2Proof.Machine.execGe ra rb s
  | .le ra rb => Sys2Proof.Machine.execLe ra rb s
  | .ldi addr dst => Sys2Proof.Machine.execLdi addr dst s
  | .sti src addr => Sys2Proof.Machine.execSti src addr s

end Sys2Proof.Machine
end

