-- ==== Sys2Proof/Machine/Step.lean ====
section
/-! DEFINITION. One dispatcher transition (30_encoding.md R48 to R54). -/

namespace Sys2Proof.Machine

open Sys2Proof Host

/-- One `step` of the host's port: nothing if Halted (R48, R113); otherwise the fetch check (R49), fetch,
advance and decode (R50), opcode lookup (R51) and execution (R52). -/
def step (s : State) : Outcome State Fault Refusal :=
  match s.run with
  | .halted => .next s
  | .running =>
    if s.fetchFits then
      match decode s.cfg s.fetchWord with
      | .ok i => exec i s.advancePc
      | .error (.unknownOpcode op) => .next (s.advancePc.haltUnknownOpcode op)
      | .error (.reservedBits m) => .refused (.reservedBits m)
    else .next s.haltEndOfProgram

/-- `s` with a table word stored at `pc`, where the next step fetches (assumption 8). It stands for the
host's block load of the program (R30, R111) and changes the ten bytes at `pc` only. -/
def State.withFetchWord (s : State) (nbits w : Nat) : State := s.storeInstr (tableWord nbits w)

end Sys2Proof.Machine
end

