-- ==== Sys2Proof/Machine/Port.lean ====
section
/-! DEFINITION. The host's transactions (70_reset_and_hazards.md R113 to R114; 20_memory.md R30), performed
one at a time and never during a step. -/

namespace Sys2Proof.Machine

open Sys2Proof Host

/-- What the host's ports act on: the CORE and, the MODEL's own bit, whether a step was issued since the
last reset, which decides whether `load` has a meaning (R113, D16; assumption 10). -/
structure Session where
  core : State
  stepped : Bool
  deriving DecidableEq, Repr

/-- What the port `status` answers (R113). -/
structure Status where
  run : RunState
  reason : BitVec 2
  opcode : Opcode
  addr : Word
  faultAddr : Word
  deriving DecidableEq, Repr

/-- Port `reset`: the reset state of the same instance, memory included (R109). -/
def portReset (x : Session) : Session := ⟨State.resetWith x.core.cfg, false⟩

/-- Port `load`: `load_block(offset, bytes)` (R30), with a meaning only between reset and the first step
(R113, D16, I13). A block that does not fit is reported and writes no byte. -/
def portLoad (offset : Word) (bytes : List Byte) (x : Session) : Outcome Session Fault Refusal :=
  if x.stepped then .refused .loadAfterFirstStep
  else if x.core.fits offset bytes.length then
    .next { x with core := x.core.writeMem (x.core.mem.writeBytes offset.toNat bytes) }
  else .fault (.hostLoad offset bytes.length)

/-- Port `step`: one dispatcher transition if Running, nothing if Halted (R113). -/
def portStep (x : Session) : Outcome Session Fault Refusal :=
  match x.core.run with
  | .halted => .next x
  | .running =>
    match step x.core with
    | .next s => .next ⟨s, true⟩
    | .fault r => .fault r
    | .refused r => .refused r

/-- Port `run`: `step` repeated until Halted, at most `fuel` times: "the host may stop issuing steps between
any two" (R54, R113). -/
def portRun : (fuel : Nat) → Session → Outcome Session Fault Refusal
  | 0, x => .next x
  | fuel + 1, x =>
    match x.core.run with
    | .halted => .next x
    | .running =>
      match portStep x with
      | .next y => portRun fuel y
      | .fault r => .fault r
      | .refused r => .refused r

/-- Port `read_reg`: `x[i]` for `i` in 0..15, without the clamp, so r15 is visible (R8, R113). -/
def portReadReg (x : Session) (i : Fin 16) : Word := x.core.readReg i

/-- Port `status` (R113, R103). -/
def portStatus (x : Session) : Status :=
  ⟨x.core.run, x.core.halt.reason.code, x.core.halt.opcode, x.core.halt.addr, x.core.halt.faultAddr⟩

/-- Port `read_pc` (R113). -/
def portReadPc (x : Session) : Word := x.core.pc

/-- Port `read_sp` (R113). -/
def portReadSp (x : Session) : Word := x.core.sp

/-- Port `read_mem`: bytes in `[0, MEM_SIZE)`, refused otherwise (R113). -/
def portReadMem (x : Session) (a n : Nat) : Except Refusal (List Byte) :=
  if a + n ≤ x.core.cfg.memSize.toNat then .ok (x.core.mem.readBytes a n)
  else .error (.readOutOfRange a n)

/-- Boot: reset, then the program loaded at address 0; a program longer than MEM_SIZE is refused with
MemoryFault and nothing runs (R111). -/
def portBoot (program : List Byte) (x : Session) : Outcome Session Fault Refusal :=
  portLoad 0 program (portReset x)

end Sys2Proof.Machine
end

