-- ==== Sys2Proof/Safety.lean ====
section
/-! DEFINITION. The terms the statements are written in: what a step leaves unchanged, what an instruction
may touch (10_state.md R9, 60_exceptions.md R94), and the invariant of a safe run. -/

namespace Sys2Proof.Machine

open Sys2Proof

/-! ### Frames -/

/-- Every register reads as before. -/
def SameRegs (s t : State) : Prop := ∀ i : Fin 16, t.readReg i = s.readReg i

/-- Register `i` reads `v` and every other register reads as before. -/
def RegWritten (i : Fin 16) (v : Word) (s t : State) : Prop :=
  t.readReg i = v ∧ ∀ j : Fin 16, j ≠ i → t.readReg j = s.readReg j

/-- Every byte of memory reads as before. -/
def SameMem (s t : State) : Prop := ∀ a : Nat, t.mem.read a = s.mem.read a

/-- Every byte outside the `n` bytes at `a` reads as before. -/
def SameMemOutside (a n : Nat) (s t : State) : Prop :=
  ∀ b : Nat, (b < a ∨ a + n ≤ b) → t.mem.read b = s.mem.read b

/-- The four bytes at `a` read as `v`, most significant byte first, and every other byte reads as before
(R24). -/
def WordStored (a : Nat) (v : Word) (s t : State) : Prop :=
  t.mem.read a = v.extractLsb' 24 8 ∧ t.mem.read (a + 1) = v.extractLsb' 16 8 ∧
  t.mem.read (a + 2) = v.extractLsb' 8 8 ∧ t.mem.read (a + 3) = v.extractLsb' 0 8 ∧
  SameMemOutside a 4 s t

/-- The parameters, the dispatcher state and the halt record are as before. -/
def SameControl (s t : State) : Prop := t.cfg = s.cfg ∧ t.run = s.run ∧ t.halt = s.halt

/-- The whole effect is that register `i` becomes `v`. -/
def RegResult (i : Fin 16) (v : Word) (s t : State) : Prop :=
  RegWritten i v s t ∧ SameMem s t ∧ SameControl s t ∧ t.pc = s.pc ∧ t.sp = s.sp

/-- The whole effect is that `pc` becomes `v`. -/
def PcResult (v : Word) (s t : State) : Prop :=
  t.pc = v ∧ SameRegs s t ∧ SameMem s t ∧ SameControl s t ∧ t.sp = s.sp

/-- The whole effect is that the word at `a` becomes `v`. -/
def StoreResult (a : Nat) (v : Word) (s t : State) : Prop :=
  WordStored a v s t ∧ SameRegs s t ∧ SameControl s t ∧ t.pc = s.pc ∧ t.sp = s.sp

/-- The dispatcher is Halted with halt record `r`, and registers, memory, `sp`, `pc` and the parameters are
as before (R101). -/
def HaltedWith (r : HaltRecord) (s t : State) : Prop :=
  t.run = .halted ∧ t.halt = r ∧ t.pc = s.pc ∧ t.sp = s.sp ∧ t.cfg = s.cfg ∧ SameRegs s t ∧ SameMem s t

/-- The instruction with opcode `op`, whose fetch left `pc = ia + 10`, raised MemoryFault(`a`) (R52, R94). -/
def MemoryFaulted (op : Opcode) (a : Word) (s t : State) : Prop :=
  HaltedWith ⟨.memoryFault, op, s.pc - 10, a⟩ s t

/-- The two states differ in `x[15]` at most (R8). -/
def AgreeButAcc (s t : State) : Prop :=
  (∀ i : Fin 16, i ≠ 15 → t.readReg i = s.readReg i) ∧ t.cfg = s.cfg ∧ t.pc = s.pc ∧ t.sp = s.sp ∧
  t.run = s.run ∧ t.halt = s.halt ∧ t.mem = s.mem

/-- The next fetch of `t` sees the word `v` stored at `a` (R36): byte `k` of its ten is the byte of `v` that the
store put there (R24), and elsewhere the byte that memory held in `s`. -/
def FetchSeesStore (a : Nat) (v : Word) (s t : State) : Prop :=
  ∀ k : Nat, k < 10 → t.fetchWord.extractLsb' (8 * (9 - k)) 8 =
    if a ≤ t.pc.toNat + k ∧ t.pc.toNat + k < a + 4
    then v.extractLsb' (8 * (3 - (t.pc.toNat + k - a))) 8 else s.mem.read (t.pc.toNat + k)

/-! ### What an instruction may touch -/

/-- The register an instruction can write: the table of R9. -/
def writtenReg : Instr → Option (Fin 16)
  | .ld _ dst => some (regIndex dst)
  | .lc _ dst => some (regIndex dst)
  | .dr _ _ => none
  | .cpy _ dst => some (regIndex dst)
  | .or _ _ => some 15
  | .and _ _ => some 15
  | .xor _ _ => some 15
  | .nand _ _ => some 15
  | .nor _ _ => some 15
  | .not _ _ => some 15
  | .add _ _ => some 15
  | .sub _ _ => some 15
  | .mul _ _ => some 15
  | .div _ _ => some 15
  | .exp _ _ => some 15
  | .jmp _ _ => none
  | .jmr _ _ => none
  | .cmp _ _ => none
  | .cmr _ _ => none
  | .psh _ _ => none
  | .pop dst _ => some (regIndex dst)
  | .movsp _ _ => none
  | .call _ _ => none
  | .ret _ _ => none
  | .gt _ _ => some 15
  | .lt _ _ => some 15
  | .eq _ _ => some 15
  | .ne _ _ => some 15
  | .ge _ _ => some 15
  | .le _ _ => some 15
  | .ldi _ dst => some (regIndex dst)
  | .sti _ _ => none

/-- The next step runs an instruction that writes the accumulator (R8, R9). -/
def StepWritesAcc (s : State) : Prop :=
  s.run = .running ∧ s.fetchFits ∧ ∃ i, decode s.cfg s.fetchWord = .ok i ∧ writtenReg i = some 15

/-- The word address an instruction's one data access checks, in the state after the fetch: the table of
R94. -/
def dataAddress (i : Instr) (s : State) : Option Word :=
  match i with
  | .ld addr _ => some addr
  | .lc _ _ => none
  | .dr _ addr => some addr
  | .cpy _ _ => none
  | .or _ _ => none
  | .and _ _ => none
  | .xor _ _ => none
  | .nand _ _ => none
  | .nor _ _ => none
  | .not _ _ => none
  | .add _ _ => none
  | .sub _ _ => none
  | .mul _ _ => none
  | .div _ _ => none
  | .exp _ _ => none
  | .jmp _ _ => none
  | .jmr _ _ => none
  | .cmp _ _ => none
  | .cmr _ _ => none
  | .psh _ _ => some s.pushAddr
  | .pop _ _ => some s.sp
  | .movsp _ _ => none
  | .call _ _ => some s.pushAddr
  | .ret _ _ => some s.sp
  | .gt _ _ => none
  | .lt _ _ => none
  | .eq _ _ => none
  | .ne _ _ => none
  | .ge _ _ => none
  | .le _ _ => none
  | .ldi addr _ => some (s.regOperand addr)
  | .sti _ addr => some (s.regOperand addr)

/-! ### The invariant of a safe run -/

/-- The halt record says why the dispatcher halted, and only that (R19, R49, R51, R52, R93): clear while
Running; EndOfProgram at an address whose fetch does not fit; UnknownOpcode with an unassigned opcode;
MemoryFault at an address whose word does not fit, in an instruction that was fetched. -/
def State.haltRecordOk (s : State) : Bool :=
  match s.run, s.halt.reason with
  | .running, _ => s.halt == HaltRecord.clear
  | .halted, .none => false
  | .halted, .endOfProgram => s.halt.opcode == 0 && s.halt.faultAddr == 0 && !decide (s.fits s.halt.addr 10)
  | .halted, .memoryFault =>
    (s.cfg.opcodes.lookup s.halt.opcode).isSome && decide (s.fits s.halt.addr 10)
      && !decide (s.wordFits s.halt.faultAddr)
  | .halted, .unknownOpcode =>
    !(s.cfg.opcodes.lookup s.halt.opcode).isSome && decide (s.fits s.halt.addr 10)
      && s.halt.faultAddr == 0

/-- The invariant every step keeps: the memory is in canonical form, it lists no address outside
`[0, MEM_SIZE)` (R20, R23), and the halt record is right (R19). -/
abbrev Inv (s : State) : Prop :=
  s.mem.wf = true ∧ s.mem.within s.cfg.memSize.toNat = true ∧ s.haltRecordOk = true

end Sys2Proof.Machine
end

