-- ==== Sys2Proof/Certificates/Slice0/Obligations.lean ====
section
/-! DEFINITION. The statements for the provers. `exec i s` runs with the state after the fetch: `s.pc` is the
instruction's address plus 10 (R50). The words "the spec's decision D<n>" name a row of
92_eei_decisions.md; the log entry of the model is named beside it. A clause about `encode` states the
encoding of a rule for every OPCODE_MAP: the opcode values themselves are the spec's decision D1, stated
apart in `DefaultParametersAreTheTable`. Bounds are compared on mathematical integers, as the notation of
00_scope.md, section 5, says (the spec's decision D6; assumption 6). -/

open Sys2Proof Sys2Proof.Machine Host

/-! ### Reset and parameters -/

/-- R10, and of R11, R14 and R20 the reset values: right after reset, for every choice of the parameters, every
register reads 0, every memory byte reads 0, `pc` is 0 and `sp` is MEM_SIZE. -/
def Obligations.ResetZeroesRegistersAndMemory : Prop :=
  ∀ c : Config,
    (∀ i : Fin 16, (State.resetWith c).readReg i = 0x00000000) ∧
    (∀ a : Nat, (State.resetWith c).mem.read a = 0x00) ∧
    (State.resetWith c).pc = 0x00000000 ∧ (State.resetWith c).sp = c.memSize

/-- The port `reset`, at any time (R109; that a later reset does the same is the spec's decision D17, the
codes and `fault_addr` are D10 and D20): every piece of state of R4 at its reset value, the parameters kept. -/
def Obligations.PortResetRestoresEveryField : Prop :=
  ∀ x : Session,
    (∀ i : Fin 16, (portReset x).core.readReg i = 0) ∧
    (∀ a : Nat, (portReset x).core.mem.read a = 0) ∧
    (portReset x).core.pc = 0 ∧ (portReset x).core.sp = x.core.cfg.memSize ∧
    (portReset x).core.run = .running ∧ (portReset x).core.halt.reason.code = 0 ∧
    (portReset x).core.halt.opcode = 0 ∧ (portReset x).core.halt.addr = 0 ∧
    (portReset x).core.halt.faultAddr = 0 ∧ (portReset x).core.cfg = x.core.cfg

/-- The default OPCODE_MAP is the table of R44 in the table's order and meets the constraints of R2, and the
default memory has 1 MiB (R1). Only LC's value is the source's: the others are the spec's decision D1
(assumption 3). -/
def Obligations.DefaultParametersAreTheTable : Prop :=
  Mnemonic.all.map Config.default.opcodes.get =
    [0x0001, 0x0002, 0x0003, 0x0004, 0x0005, 0x0006, 0x0007, 0x0008,
     0x0009, 0x000A, 0x000B, 0x000C, 0x000D, 0x000E, 0x000F, 0x0010,
     0x0011, 0x0012, 0x0013, 0x0014, 0x0015, 0x0016, 0x0017, 0x0018,
     0x0019, 0x001A, 0x001B, 0x001C, 0x001D, 0x001E, 0x001F, 0x0020] ∧
  Config.default.wellFormed = true ∧ State.reset.cfg = Config.default ∧
  State.reset.sp.toNat = 1048576

/-! ### Encoding -/

/-- Six instruction words written out from the spec's encodings decode to what they stand for, under the
default parameters: LC of scenario A (R56), LD (R55), CMR (R76), MOVSP (R80), STI (R92) and NOT with a
non-zero unused field (V-CL7; that it is ignored is the spec's decision D4, assumption 4). -/
def Obligations.SampleWordsDecode : Prop :=
  decode Config.default 0x00020000000500000000 = .ok (.lc 5 ⟨0, 0⟩) ∧
  decode Config.default 0x00010000010000000003 = .ok (.ld 0x100 ⟨0, 3⟩) ∧
  decode Config.default 0x001300000000FFFFFFE2 = .ok (.cmr ⟨0, 0⟩ 0xFFFFFFE2) ∧
  decode Config.default 0x0016FFFFFFF000000000 = .ok (.movsp 0xFFFFFFF0 0) ∧
  decode Config.default 0x00200000000300000004 = .ok (.sti ⟨0, 3⟩ ⟨0, 4⟩) ∧
  decode Config.default 0x000A00000001FFFFFFFF = .ok (.not ⟨0, 1⟩ 0xFFFFFFFF)

/-- Decoding an encoded instruction gives it back, for every instruction, every operand and every OPCODE_MAP
that meets R2: as a word and as ten bytes. -/
def Obligations.DecodeOfEncodeIsIdentity : Prop :=
  ∀ (c : Config) (i : Instr), c.wellFormed = true → i.wellFormed c = true →
    decode c (encode c i) = .ok i ∧ decodeBytes c (encodeBytes c i) = .ok i

/-- Encoding a decoded word gives the word back, so no bit of a word is dropped and no two words decode to
one instruction; and what is decoded is well formed. -/
def Obligations.EncodeOfDecodeIsIdentity : Prop :=
  ∀ (c : Config) (w : InstrWord) (i : Instr), decode c w = .ok i →
    encode c i = w ∧ i.wellFormed c = true

/-- The decoder's fields of ten bytes (R41): any ten bytes are a word, and its opcode, field A and field B are
the first two, the next four and the last four bytes, each with its first byte most significant. -/
def Obligations.TenBytesDecodeToFields : Prop :=
  ∀ b0 b1 b2 b3 b4 b5 b6 b7 b8 b9 : Byte,
    ∃ w, wordOfBytes [b0, b1, b2, b3, b4, b5, b6, b7, b8, b9] = some w ∧
      opcodeOf w = b0 ++ b1 ∧ fieldA w = b2 ++ b3 ++ b4 ++ b5 ∧ fieldB w = b6 ++ b7 ++ b8 ++ b9

/-- The opcode alone selects the instruction, and under the default policy no operand value makes a word
illegal (R44, R46; that reserved and unused bits are ignored is the spec's decision D4, assumption 4). -/
def Obligations.OpcodeAloneSelects : Prop :=
  ∀ (c : Config) (m : Mnemonic) (a b : Word), c.opcodes.injective = true → c.reservedPolicy = .ignore →
    decode c (c.opcodes.get m ++ a ++ b) = .ok (instrOf m a b)

/-- The decoder answers UnknownOpcode exactly for the words whose opcode is no mnemonic's (R45). -/
def Obligations.UnknownOpcodeExactlyOutsideMap : Prop :=
  ∀ (c : Config) (w : InstrWord),
    decode c w = .error (.unknownOpcode (opcodeOf w)) ↔ ∀ m, c.opcodes.get m ≠ opcodeOf w

/-- Under the default map the unassigned opcodes are 0x0000 and 0x0021 to 0xFFFF (R45; the spec's decisions
D1 and D2, assumption 3). -/
def Obligations.DefaultMapUnassignedRange : Prop :=
  ∀ op : Opcode, Config.default.opcodes.lookup op = none ↔ op.toNat = 0 ∨ 0x21 ≤ op.toNat

/-- Under RESERVED_POLICY `refuse` (93_implementation_defined.md I1, I2; assumption 4) a running step refuses
a word with an assigned opcode exactly when a reserved byte or unused field of it is not zero. -/
def Obligations.RefusePolicyRefusesReservedBits : Prop :=
  ∀ (s : State) (m : Mnemonic), s.run = .running → s.fetchFits → s.cfg.reservedPolicy = .refuse →
    s.cfg.opcodes.lookup (opcodeOf s.fetchWord) = some m →
    (step s = .refused (.reservedBits m) ↔
      (instrOf m (fieldA s.fetchWord) (fieldB s.fetchWord)).reservedZero = false)

/-! ### Operands -/

/-- The clamp (R7): a register field selects `min(index, 14)`, so indexes 15 to 255 act as 14, and it does
so for reading and for writing. -/
def Obligations.ClampRule : Prop :=
  (∀ f : RegField, (regIndex f).val = min f.idx.toNat 14) ∧
  (∀ (s : State) (f g : RegField) (v : Word), 14 ≤ f.idx.toNat → 14 ≤ g.idx.toNat →
    s.regOperand f = s.regOperand g ∧ s.writeRegOperand f v = s.writeRegOperand g v)

/-- Every instruction acts exactly as the one with its register indexes clamped and its reserved bytes and
unused fields zero (R7, R42, R46; ignoring them is the spec's decision D4, assumption 4). -/
def Obligations.IgnoredBitsHaveNoEffect : Prop :=
  ∀ (i : Instr) (s : State), exec (canonicalInstr i) s = exec i s

/-! ### Data movement -/

/-- LD (R55): a legal address loads the word into the destination and changes nothing else; an illegal one
halts with MemoryFault (R52, R94) and changes no register.
`pc` after a fault is the spec's decision D8, `fault_addr` is D20 (assumptions 7, 12). -/
def Obligations.LdLoadsWord : Prop :=
  ∀ (s : State) (addr : Word) (dst : RegField),
    encode s.cfg (.ld addr dst) = s.cfg.opcodes.ld ++ addr ++ (dst.rsv ++ dst.idx) ∧
    (addr.toNat + 4 ≤ s.cfg.memSize.toNat →
      ∃ t, exec (.ld addr dst) s = .next t ∧
        RegResult (regIndex dst) (s.mem.readWord addr.toNat) s t) ∧
    (s.cfg.memSize.toNat < addr.toNat + 4 →
      ∃ t, exec (.ld addr dst) s = .next t ∧ MemoryFaulted s.cfg.opcodes.ld addr s t)

/-- LC (R56): the constant goes unchanged into the destination, and nothing else changes. Under every map
that meets R2 its word starts with 0x0002. -/
def Obligations.LcLoadsConstant : Prop :=
  ∀ (s : State) (imm : Word) (dst : RegField),
    (s.cfg.wellFormed = true →
      encode s.cfg (.lc imm dst) = (0x0002 : Opcode) ++ imm ++ (dst.rsv ++ dst.idx)) ∧
    ∃ t, exec (.lc imm dst) s = .next t ∧ RegResult (regIndex dst) imm s t

/-- DR (R57): a legal address gets the register's value, big-endian, and no other byte changes; an illegal
one halts with MemoryFault (R52, R94) and changes no byte. `pc` after a fault is the spec's decision D8,
`fault_addr` is D20 (assumptions 7, 12). -/
def Obligations.DrStoresWord : Prop :=
  ∀ (s : State) (src : RegField) (addr : Word),
    encode s.cfg (.dr src addr) = s.cfg.opcodes.dr ++ (src.rsv ++ src.idx) ++ addr ∧
    (addr.toNat + 4 ≤ s.cfg.memSize.toNat →
      ∃ t, exec (.dr src addr) s = .next t ∧ StoreResult addr.toNat (s.regOperand src) s t) ∧
    (s.cfg.memSize.toNat < addr.toNat + 4 →
      ∃ t, exec (.dr src addr) s = .next t ∧ MemoryFaulted s.cfg.opcodes.dr addr s t)

/-- CPY (R58): the destination gets the source's value, and nothing else changes. -/
def Obligations.CpyCopiesRegister : Prop :=
  ∀ (s : State) (src dst : RegField),
    encode s.cfg (.cpy src dst) = s.cfg.opcodes.cpy ++ (src.rsv ++ src.idx) ++ (dst.rsv ++ dst.idx) ∧
    ∃ t, exec (.cpy src dst) s = .next t ∧ RegResult (regIndex dst) (s.regOperand src) s t

/-! ### Bitwise -/

/-- OR, AND, XOR (R60, R61, R62): bit `k` of the accumulator is the combination of bit `k` of the two
registers, and nothing else changes. -/
def Obligations.OrAndXorCombineBits : Prop :=
  ∀ (s : State) (a b : RegField),
    encode s.cfg (.or a b) = s.cfg.opcodes.or ++ (a.rsv ++ a.idx) ++ (b.rsv ++ b.idx) ∧
    encode s.cfg (.and a b) = s.cfg.opcodes.and ++ (a.rsv ++ a.idx) ++ (b.rsv ++ b.idx) ∧
    encode s.cfg (.xor a b) = s.cfg.opcodes.xor ++ (a.rsv ++ a.idx) ++ (b.rsv ++ b.idx) ∧
    (∃ t v, exec (.or a b) s = .next t ∧ RegResult 15 v s t ∧
      ∀ k, k < 32 → v.getLsbD k = ((s.regOperand a).getLsbD k || (s.regOperand b).getLsbD k)) ∧
    (∃ t v, exec (.and a b) s = .next t ∧ RegResult 15 v s t ∧
      ∀ k, k < 32 → v.getLsbD k = ((s.regOperand a).getLsbD k && (s.regOperand b).getLsbD k)) ∧
    (∃ t v, exec (.xor a b) s = .next t ∧ RegResult 15 v s t ∧
      ∀ k, k < 32 → v.getLsbD k = ((s.regOperand a).getLsbD k ^^ (s.regOperand b).getLsbD k))

/-- NAND, NOR (R63, R64): bit `k` of the accumulator is the complement of the AND or the OR of bit `k` of the
two registers, for the 32 bits and no more, and nothing else changes. -/
def Obligations.NandNorComplementBits : Prop :=
  ∀ (s : State) (a b : RegField),
    encode s.cfg (.nand a b) = s.cfg.opcodes.nand ++ (a.rsv ++ a.idx) ++ (b.rsv ++ b.idx) ∧
    encode s.cfg (.nor a b) = s.cfg.opcodes.nor ++ (a.rsv ++ a.idx) ++ (b.rsv ++ b.idx) ∧
    (∃ t v, exec (.nand a b) s = .next t ∧ RegResult 15 v s t ∧
      ∀ k, k < 32 → v.getLsbD k = !((s.regOperand a).getLsbD k && (s.regOperand b).getLsbD k)) ∧
    (∃ t v, exec (.nor a b) s = .next t ∧ RegResult 15 v s t ∧
      ∀ k, k < 32 → v.getLsbD k = !((s.regOperand a).getLsbD k || (s.regOperand b).getLsbD k))

/-- NOT (R65): the accumulator gets the complement of the register, `2^32 - 1` less its value, and nothing
else changes, whatever field B holds (the spec's decision D4, assumption 4). -/
def Obligations.NotComplementsRegister : Prop :=
  ∀ (s : State) (a : RegField) (unusedB : Word),
    encode s.cfg (.not a unusedB) = s.cfg.opcodes.not ++ (a.rsv ++ a.idx) ++ unusedB ∧
    ∃ t v, exec (.not a unusedB) s = .next t ∧ RegResult 15 v s t ∧
      v.toNat = 2 ^ 32 - 1 - (s.regOperand a).toNat

/-! ### Arithmetic -/

/-- ADD and MUL (R67, R69): the accumulator gets the sum or the product mod 2^32, and nothing else changes. -/
def Obligations.AddMulModulo : Prop :=
  ∀ (s : State) (a b : RegField),
    encode s.cfg (.add a b) = s.cfg.opcodes.add ++ (a.rsv ++ a.idx) ++ (b.rsv ++ b.idx) ∧
    encode s.cfg (.mul a b) = s.cfg.opcodes.mul ++ (a.rsv ++ a.idx) ++ (b.rsv ++ b.idx) ∧
    (∃ t v, exec (.add a b) s = .next t ∧ RegResult 15 v s t ∧
      v.toNat = ((s.regOperand a).toNat + (s.regOperand b).toNat) % 2 ^ 32) ∧
    (∃ t v, exec (.mul a b) s = .next t ∧ RegResult 15 v s t ∧
      v.toNat = ((s.regOperand a).toNat * (s.regOperand b).toNat) % 2 ^ 32)

/-- SUB (R68): the accumulator gets field A's register less field B's, mod 2^32, and nothing else changes.
The operand order is the spec's decision D3 (assumption 14). -/
def Obligations.SubModulo : Prop :=
  ∀ (s : State) (a b : RegField),
    encode s.cfg (.sub a b) = s.cfg.opcodes.sub ++ (a.rsv ++ a.idx) ++ (b.rsv ++ b.idx) ∧
    ∃ t v, exec (.sub a b) s = .next t ∧ RegResult 15 v s t ∧
      (v.toNat : Int) = ((s.regOperand a).toNat - (s.regOperand b).toNat : Int) % 2 ^ 32

/-- DIV (R70, R97): the quotient rounded down, and a zero divisor gives the dividend; nothing else changes.
The operand order is the spec's decision D3 (assumption 14), keeping the substitution is D11. -/
def Obligations.DivFloorsAndZeroDivisorIsOne : Prop :=
  ∀ (s : State) (a b : RegField),
    encode s.cfg (.div a b) = s.cfg.opcodes.div ++ (a.rsv ++ a.idx) ++ (b.rsv ++ b.idx) ∧
    ∃ t v, exec (.div a b) s = .next t ∧ RegResult 15 v s t ∧
      (s.regOperand b = 0 → v = s.regOperand a) ∧
      (s.regOperand b ≠ 0 → v.toNat = (s.regOperand a).toNat / (s.regOperand b).toNat)

/-- EXP (R71): `r^s mod 2^32` for the whole 32-bit exponent, with EXP_ZERO_ZERO (93_implementation_defined.md
I12, assumption 5) for `0^0`; at its default 1 the rule holds without exception, the spec's decision D9. The
operand order is D3 (assumption 14). Nothing else changes. -/
def Obligations.ExpIsModularPower : Prop :=
  ∀ (s : State) (a b : RegField),
    encode s.cfg (.exp a b) = s.cfg.opcodes.exp ++ (a.rsv ++ a.idx) ++ (b.rsv ++ b.idx) ∧
    ∃ t v, exec (.exp a b) s = .next t ∧ RegResult 15 v s t ∧
      (s.regOperand a = 0 ∧ s.regOperand b = 0 → v = s.cfg.expZeroZero) ∧
      (¬ (s.regOperand a = 0 ∧ s.regOperand b = 0) ∨ s.cfg.expZeroZero = 1 →
        v.toNat = (s.regOperand a).toNat ^ (s.regOperand b).toNat % 2 ^ 32)

/-! ### Control flow -/

/-- JMP and JMR (R72, R73, R74): `pc` becomes the target, or the advanced `pc` plus the signed offset mod
2^32, and nothing else changes, whatever field B holds (the spec's decisions D4, D5 and its passage G2;
assumptions 4, 6, 16). -/
def Obligations.JmpJmrSetPc : Prop :=
  ∀ (s : State) (a unusedB : Word),
    encode s.cfg (.jmp a unusedB) = s.cfg.opcodes.jmp ++ a ++ unusedB ∧
    encode s.cfg (.jmr a unusedB) = s.cfg.opcodes.jmr ++ a ++ unusedB ∧
    (∃ t, exec (.jmp a unusedB) s = .next t ∧ PcResult a s t) ∧
    (∃ t v, exec (.jmr a unusedB) s = .next t ∧ PcResult v s t ∧
      (v.toNat : Int) = ((s.pc.toNat : Int) + a.toInt) % 2 ^ 32)

/-- CMP (R75): `pc` becomes the address in field B if the register of field A is not zero, else `pc` stays;
nothing else changes. -/
def Obligations.CmpBranchesIfNonZero : Prop :=
  ∀ (s : State) (cond : RegField) (target : Word),
    encode s.cfg (.cmp cond target) = s.cfg.opcodes.cmp ++ (cond.rsv ++ cond.idx) ++ target ∧
    ∃ t, exec (.cmp cond target) s = .next t ∧
      PcResult (if s.regOperand cond = 0 then s.pc else target) s t

/-- CMR (R76): the advanced `pc` plus the signed offset mod 2^32 if the register of field A is not zero,
else `pc` stays; nothing else changes (the spec's decision D5 and passage G2; assumptions 6, 16). -/
def Obligations.CmrBranchesIfNonZero : Prop :=
  ∀ (s : State) (cond : RegField) (off : Word),
    encode s.cfg (.cmr cond off) = s.cfg.opcodes.cmr ++ (cond.rsv ++ cond.idx) ++ off ∧
    ∃ t v, exec (.cmr cond off) s = .next t ∧ PcResult v s t ∧
      (s.regOperand cond = 0 → v = s.pc) ∧
      (s.regOperand cond ≠ 0 → (v.toNat : Int) = ((s.pc.toNat : Int) + off.toInt) % 2 ^ 32)

/-! ### Stack, call and return -/

/-- PSH (R77, R78): if the slot at `(sp - 4) mod 2^32` is legal, the register is stored there and `sp`
becomes it; else MemoryFault at that address, `sp` unchanged. The wrap is the spec's decision D5, ignoring
field B is D4, `pc` after a fault is D8, `fault_addr` is D20 (assumptions 4, 6, 7, 12). -/
def Obligations.PshStoresBelowSp : Prop :=
  ∀ (s : State) (src : RegField) (unusedB : Word),
    encode s.cfg (.psh src unusedB) = s.cfg.opcodes.psh ++ (src.rsv ++ src.idx) ++ unusedB ∧
    ((s.sp - 4).toNat + 4 ≤ s.cfg.memSize.toNat →
      ∃ t, exec (.psh src unusedB) s = .next t ∧
        WordStored (s.sp - 4).toNat (s.regOperand src) s t ∧ t.sp = s.sp - 4 ∧
        SameRegs s t ∧ SameControl s t ∧ t.pc = s.pc) ∧
    (s.cfg.memSize.toNat < (s.sp - 4).toNat + 4 →
      ∃ t, exec (.psh src unusedB) s = .next t ∧ MemoryFaulted s.cfg.opcodes.psh (s.sp - 4) s t)

/-- POP (R77, R79): if the word at `sp` is legal, it goes into the register and `sp` grows by 4; else
MemoryFault at `sp`, register and `sp` unchanged. Memory never changes. Ignoring field B is the spec's
decision D4, `pc` after a fault is D8, `fault_addr` is D20 (assumptions 4, 7, 12). -/
def Obligations.PopLoadsAtSp : Prop :=
  ∀ (s : State) (dst : RegField) (unusedB : Word),
    encode s.cfg (.pop dst unusedB) = s.cfg.opcodes.pop ++ (dst.rsv ++ dst.idx) ++ unusedB ∧
    (s.sp.toNat + 4 ≤ s.cfg.memSize.toNat →
      ∃ t, exec (.pop dst unusedB) s = .next t ∧
        RegWritten (regIndex dst) (s.mem.readWord s.sp.toNat) s t ∧ t.sp.toNat = s.sp.toNat + 4 ∧
        SameMem s t ∧ SameControl s t ∧ t.pc = s.pc) ∧
    (s.cfg.memSize.toNat < s.sp.toNat + 4 →
      ∃ t, exec (.pop dst unusedB) s = .next t ∧ MemoryFaulted s.cfg.opcodes.pop s.sp s t)

/-- MOVSP (R80): `sp` plus the signed offset mod 2^32, unchecked; nothing else changes (the spec's decisions
D4, D5 and passage G2; assumptions 4, 6, 16). -/
def Obligations.MovspAddsOffset : Prop :=
  ∀ (s : State) (off unusedB : Word),
    encode s.cfg (.movsp off unusedB) = s.cfg.opcodes.movsp ++ off ++ unusedB ∧
    ∃ t, exec (.movsp off unusedB) s = .next t ∧
      (t.sp.toNat : Int) = ((s.sp.toNat : Int) + off.toInt) % 2 ^ 32 ∧
      t.pc = s.pc ∧ SameRegs s t ∧ SameMem s t ∧ SameControl s t

/-- CALL (R81): if the slot at `(sp - 4) mod 2^32` is legal, the advanced `pc` is stored there, `sp` becomes
it and `pc` the target; else MemoryFault, `pc` kept. The wrap is the spec's decision D5, ignoring field B is
D4, `pc` after the fault is D8, `fault_addr` is D20 (assumptions 4, 6, 7, 12). -/
def Obligations.CallPushesPcAndJumps : Prop :=
  ∀ (s : State) (target unusedB : Word),
    encode s.cfg (.call target unusedB) = s.cfg.opcodes.call ++ target ++ unusedB ∧
    ((s.sp - 4).toNat + 4 ≤ s.cfg.memSize.toNat →
      ∃ t, exec (.call target unusedB) s = .next t ∧
        WordStored (s.sp - 4).toNat s.pc s t ∧ t.sp = s.sp - 4 ∧ t.pc = target ∧
        SameRegs s t ∧ SameControl s t) ∧
    (s.cfg.memSize.toNat < (s.sp - 4).toNat + 4 →
      ∃ t, exec (.call target unusedB) s = .next t ∧
        MemoryFaulted s.cfg.opcodes.call (s.sp - 4) s t)

/-- RET (R82): if the word at `sp` is legal, `pc` becomes it and `sp` grows by 4; else MemoryFault at `sp`,
`pc` and `sp` kept. Memory and registers never change. Ignoring both fields is the spec's decision D4,
`pc` after a fault is D8, `fault_addr` is D20 (assumptions 4, 7, 12). -/
def Obligations.RetPopsPc : Prop :=
  ∀ (s : State) (unusedA unusedB : Word),
    encode s.cfg (.ret unusedA unusedB) = s.cfg.opcodes.ret ++ unusedA ++ unusedB ∧
    (s.sp.toNat + 4 ≤ s.cfg.memSize.toNat →
      ∃ t, exec (.ret unusedA unusedB) s = .next t ∧
        t.pc = s.mem.readWord s.sp.toNat ∧ t.sp.toNat = s.sp.toNat + 4 ∧
        SameRegs s t ∧ SameMem s t ∧ SameControl s t) ∧
    (s.cfg.memSize.toNat < s.sp.toNat + 4 →
      ∃ t, exec (.ret unusedA unusedB) s = .next t ∧ MemoryFaulted s.cfg.opcodes.ret s.sp s t)

/-- Where the push does not fault, PSH of any register followed by POP into any register gives `sp` back and
delivers the pushed value (95_test_vectors.md S-P3; R78, R79). -/
def Obligations.PopAfterPshRestoresSp : Prop :=
  ∀ (s : State) (src dst : RegField) (u v : Word),
    (s.sp - 4).toNat + 4 ≤ s.cfg.memSize.toNat →
    ∃ t t', exec (.psh src u) s = .next t ∧ exec (.pop dst v) t = .next t' ∧
      t'.sp = s.sp ∧ RegWritten (regIndex dst) (s.regOperand src) s t' ∧
      SameMemOutside (s.sp - 4).toNat 4 s t' ∧ t'.pc = s.pc ∧ SameControl s t'

/-- CALL, and then a RET in any state with the `sp` the CALL left and the return slot unwritten, returns to
the advanced `pc` of the CALL and restores `sp` (R83, derived there from R81 and R82). -/
def Obligations.RetAfterCallReturns : Prop :=
  ∀ (s : State) (target u : Word), (s.sp - 4).toNat + 4 ≤ s.cfg.memSize.toNat →
    ∃ t, exec (.call target u) s = .next t ∧ t.pc = target ∧
      ∀ (q : State) (ua ub : Word), q.sp = t.sp → q.cfg = t.cfg →
        (∀ a : Nat, t.sp.toNat ≤ a → a < t.sp.toNat + 4 → q.mem.read a = t.mem.read a) →
        ∃ q', exec (.ret ua ub) q = .next q' ∧ q'.pc = s.pc ∧ q'.sp = s.sp

/-! ### Comparison -/

/-- EQ and NE (R87, R88): the accumulator gets all ones or all zeros, and nothing else changes. -/
def Obligations.EqNeTruthWord : Prop :=
  ∀ (s : State) (a b : RegField),
    encode s.cfg (.eq a b) = s.cfg.opcodes.eq ++ (a.rsv ++ a.idx) ++ (b.rsv ++ b.idx) ∧
    encode s.cfg (.ne a b) = s.cfg.opcodes.ne ++ (a.rsv ++ a.idx) ++ (b.rsv ++ b.idx) ∧
    (∃ t, exec (.eq a b) s = .next t ∧
      RegResult 15 (if s.regOperand a = s.regOperand b then 0xFFFFFFFF else 0x00000000) s t) ∧
    (∃ t, exec (.ne a b) s = .next t ∧
      RegResult 15 (if s.regOperand a = s.regOperand b then 0x00000000 else 0xFFFFFFFF) s t)

/-- GT, LT, GE, LE (R84, R85, R86, R89, R90): the unsigned comparison of field A's register with field B's,
as all ones or all zeros in the accumulator; nothing else changes. The operand order is the spec's decision
D3 (assumption 14). -/
def Obligations.OrderTruthWord : Prop :=
  ∀ (s : State) (a b : RegField),
    encode s.cfg (.gt a b) = s.cfg.opcodes.gt ++ (a.rsv ++ a.idx) ++ (b.rsv ++ b.idx) ∧
    encode s.cfg (.lt a b) = s.cfg.opcodes.lt ++ (a.rsv ++ a.idx) ++ (b.rsv ++ b.idx) ∧
    encode s.cfg (.ge a b) = s.cfg.opcodes.ge ++ (a.rsv ++ a.idx) ++ (b.rsv ++ b.idx) ∧
    encode s.cfg (.le a b) = s.cfg.opcodes.le ++ (a.rsv ++ a.idx) ++ (b.rsv ++ b.idx) ∧
    (∃ t, exec (.gt a b) s = .next t ∧ RegResult 15
      (if (s.regOperand b).toNat < (s.regOperand a).toNat then 0xFFFFFFFF else 0x00000000) s t) ∧
    (∃ t, exec (.lt a b) s = .next t ∧ RegResult 15
      (if (s.regOperand a).toNat < (s.regOperand b).toNat then 0xFFFFFFFF else 0x00000000) s t) ∧
    (∃ t, exec (.ge a b) s = .next t ∧ RegResult 15
      (if (s.regOperand a).toNat < (s.regOperand b).toNat then 0x00000000 else 0xFFFFFFFF) s t) ∧
    (∃ t, exec (.le a b) s = .next t ∧ RegResult 15
      (if (s.regOperand b).toNat < (s.regOperand a).toNat then 0x00000000 else 0xFFFFFFFF) s t)

/-! ### Indirect memory -/

/-- LDI (R91): as LD at the address held in the register of field A; MemoryFault as R52 and R94 say. `pc`
after a fault is the spec's decision D8, `fault_addr` is D20 (assumptions 7, 12). -/
def Obligations.LdiLoadsIndirect : Prop :=
  ∀ (s : State) (addr dst : RegField),
    encode s.cfg (.ldi addr dst) = s.cfg.opcodes.ldi ++ (addr.rsv ++ addr.idx) ++ (dst.rsv ++ dst.idx) ∧
    ((s.regOperand addr).toNat + 4 ≤ s.cfg.memSize.toNat →
      ∃ t, exec (.ldi addr dst) s = .next t ∧
        RegResult (regIndex dst) (s.mem.readWord (s.regOperand addr).toNat) s t) ∧
    (s.cfg.memSize.toNat < (s.regOperand addr).toNat + 4 →
      ∃ t, exec (.ldi addr dst) s = .next t ∧
        MemoryFaulted s.cfg.opcodes.ldi (s.regOperand addr) s t)

/-- STI (R92): as DR at the address held in the register of field B; MemoryFault as R52 and R94 say. `pc`
after a fault is the spec's decision D8, `fault_addr` is D20 (assumptions 7, 12). -/
def Obligations.StiStoresIndirect : Prop :=
  ∀ (s : State) (src addr : RegField),
    encode s.cfg (.sti src addr) = s.cfg.opcodes.sti ++ (src.rsv ++ src.idx) ++ (addr.rsv ++ addr.idx) ∧
    ((s.regOperand addr).toNat + 4 ≤ s.cfg.memSize.toNat →
      ∃ t, exec (.sti src addr) s = .next t ∧
        StoreResult (s.regOperand addr).toNat (s.regOperand src) s t) ∧
    (s.cfg.memSize.toNat < (s.regOperand addr).toNat + 4 →
      ∃ t, exec (.sti src addr) s = .next t ∧
        MemoryFaulted s.cfg.opcodes.sti (s.regOperand addr) s t)

/-! ### Memory -/

/-- Words are big-endian (R24): the word at `a` is its four bytes with the first the most significant; a
word written reads back, its bytes lie most significant first, and no other byte changes. -/
def Obligations.WordsAreBigEndian : Prop :=
  ∀ (m : Memory) (a : Nat) (v : Word),
    (m.readWord a).toNat = (m.read a).toNat * 2 ^ 24 + (m.read (a + 1)).toNat * 2 ^ 16 +
      (m.read (a + 2)).toNat * 2 ^ 8 + (m.read (a + 3)).toNat ∧
    ((m.writeWord a v).read a).toNat = v.toNat / 2 ^ 24 ∧
    ((m.writeWord a v).read (a + 1)).toNat = v.toNat / 2 ^ 16 % 2 ^ 8 ∧
    ((m.writeWord a v).read (a + 2)).toNat = v.toNat / 2 ^ 8 % 2 ^ 8 ∧
    ((m.writeWord a v).read (a + 3)).toNat = v.toNat % 2 ^ 8 ∧
    (m.writeWord a v).readWord a = v ∧
    ∀ b, (b < a ∨ a + 4 ≤ b) → (m.writeWord a v).read b = m.read b

/-- The fetch reads the ten bytes at `pc`, each field with its first byte most significant (R25, R40), and it
reads them as every earlier store left them (R36): after a DR, STI, PSH or CALL each of the ten bytes at the
new `pc` is the stored word's byte where the store reached it, in the order of R24, and the old byte
elsewhere. Whatever the store overlaps: none, some or all of its bytes. The slot of a push at
`(sp - 4) mod 2^32` is the spec's decision D5, the ignored field B is D4 (assumptions 4, 6). -/
def Obligations.NextFetchSeesStore : Prop :=
  (∀ s : State,
    opcodeOf s.fetchWord = s.mem.read s.pc.toNat ++ s.mem.read (s.pc.toNat + 1) ∧
    fieldA s.fetchWord = s.mem.read (s.pc.toNat + 2) ++ s.mem.read (s.pc.toNat + 3) ++
      s.mem.read (s.pc.toNat + 4) ++ s.mem.read (s.pc.toNat + 5) ∧
    fieldB s.fetchWord = s.mem.read (s.pc.toNat + 6) ++ s.mem.read (s.pc.toNat + 7) ++
      s.mem.read (s.pc.toNat + 8) ++ s.mem.read (s.pc.toNat + 9)) ∧
  (∀ (s : State) (src : RegField) (addr : Word), addr.toNat + 4 ≤ s.cfg.memSize.toNat →
    ∃ t, exec (.dr src addr) s = .next t ∧ t.pc = s.pc ∧
      FetchSeesStore addr.toNat (s.regOperand src) s t) ∧
  (∀ (s : State) (src addr : RegField), (s.regOperand addr).toNat + 4 ≤ s.cfg.memSize.toNat →
    ∃ t, exec (.sti src addr) s = .next t ∧ t.pc = s.pc ∧
      FetchSeesStore (s.regOperand addr).toNat (s.regOperand src) s t) ∧
  (∀ (s : State) (src : RegField) (unusedB : Word), (s.sp - 4).toNat + 4 ≤ s.cfg.memSize.toNat →
    ∃ t, exec (.psh src unusedB) s = .next t ∧ t.pc = s.pc ∧
      FetchSeesStore (s.sp - 4).toNat (s.regOperand src) s t) ∧
  (∀ (s : State) (target unusedB : Word), (s.sp - 4).toNat + 4 ≤ s.cfg.memSize.toNat →
    ∃ t, exec (.call target unusedB) s = .next t ∧ t.pc = target ∧
      FetchSeesStore (s.sp - 4).toNat s.pc s t)

/-- The memory unit's signed read (R29): the word as a two's-complement number when the bounds check passes,
nothing when it fails. Two's complement is the spec's passage G2 (assumption 16). -/
def Obligations.SignedReadIsTwosComplement : Prop :=
  ∀ (s : State) (a : Word),
    (a.toNat + 4 ≤ s.cfg.memSize.toNat →
      ((s.mem.readWord a.toNat).toNat < 2 ^ 31 →
        s.readSignedWord a = some ((s.mem.readWord a.toNat).toNat : Int)) ∧
      (2 ^ 31 ≤ (s.mem.readWord a.toNat).toNat →
        s.readSignedWord a = some ((s.mem.readWord a.toNat).toNat - 2 ^ 32 : Int))) ∧
    (s.cfg.memSize.toNat < a.toNat + 4 → s.readSignedWord a = none)

/-- The port `read_mem` (R113): inside memory it answers the bytes in order, outside it refuses. The port is
the spec's decision D18 (assumption 21). -/
def Obligations.ReadMemAnswersBytesInRange : Prop :=
  ∀ (x : Session) (a n : Nat),
    (a + n ≤ x.core.cfg.memSize.toNat →
      ∃ bs, portReadMem x a n = .ok bs ∧ bs.length = n ∧
        ∀ k, (h : k < bs.length) → bs[k] = x.core.mem.read (a + k)) ∧
    (x.core.cfg.memSize.toNat < a + n → portReadMem x a n = .error (.readOutOfRange a n))

/-- The host's `load_block` before the first step (R30): a block that fits is written byte for byte and
nothing else changes; one that does not fit is reported and nothing is loaded; after a step it is refused.
That a failed load writes nothing and that a late one has no meaning are the spec's decision D16
(assumption 10). -/
def Obligations.LoadBlockAllOrNothing : Prop :=
  ∀ (x : Session) (off : Word) (bs : List Byte),
    (x.stepped = true → portLoad off bs x = .refused .loadAfterFirstStep) ∧
    (x.stepped = false → x.core.cfg.memSize.toNat < off.toNat + bs.length →
      portLoad off bs x = .fault (.hostLoad off bs.length)) ∧
    (x.stepped = false → off.toNat + bs.length ≤ x.core.cfg.memSize.toNat →
      ∃ y, portLoad off bs x = .next y ∧ y.stepped = false ∧
        (∀ k, (h : k < bs.length) → y.core.mem.read (off.toNat + k) = bs[k]) ∧
        SameMemOutside off.toNat bs.length x.core y.core ∧ SameRegs x.core y.core ∧
        SameControl x.core y.core ∧ y.core.pc = x.core.pc ∧ y.core.sp = x.core.sp)

/-- Boot (R111): a program that fits stands at address 0 with zeros after it, `pc` 0, `sp` MEM_SIZE, and the
dispatcher Running; a longer one is refused with the host's MemoryFault. -/
def Obligations.BootInstallsProgram : Prop :=
  ∀ (x : Session) (program : List Byte),
    (x.core.cfg.memSize.toNat < program.length →
      portBoot program x = .fault (.hostLoad 0 program.length)) ∧
    (program.length ≤ x.core.cfg.memSize.toNat →
      ∃ y, portBoot program x = .next y ∧
        (∀ k, (h : k < program.length) → y.core.mem.read k = program[k]) ∧
        (∀ a, program.length ≤ a → y.core.mem.read a = 0x00) ∧
        y.core.pc = 0 ∧ y.core.sp = x.core.cfg.memSize ∧ y.core.run = .running)

/-! ### The dispatcher -/

/-- A running step whose word decodes to `i` is `exec i` after `pc <- ia + 10`, and the advance does not
wrap (R50, R52). -/
def Obligations.StepRunsDecodedInstruction : Prop :=
  ∀ (s : State) (i : Instr), s.run = .running → s.pc.toNat + 10 ≤ s.cfg.memSize.toNat →
    decode s.cfg s.fetchWord = .ok i →
    step s = exec i { s with pc := s.pc + 10 } ∧ (s.pc + 10).toNat = s.pc.toNat + 10

/-- EndOfProgram (R49, R96): a running step whose fetch does not fit halts with reason 1, `halt_addr` the
`pc`, the other halt fields 0, and changes nothing else. R49 itself gives the code 1 and
`fault_addr`, which are the spec's decisions D10 and D20 (assumption 12). -/
def Obligations.EndOfProgramHalts : Prop :=
  ∀ s : State, s.run = .running → s.cfg.memSize.toNat < s.pc.toNat + 10 →
    ∃ t, step s = .next t ∧ HaltedWith ⟨.endOfProgram, 0x0000, s.pc, 0x00000000⟩ s t ∧
      t.halt.reason.code = 1

/-- UnknownOpcode (R51, R95): a running step that fetches an unassigned opcode halts with reason 3, the
opcode and the instruction's address, `fault_addr` 0; `pc` is past the instruction and nothing else changes.
The value of `pc` is the spec's decision D8, the code is D10, `fault_addr` is D20 (assumptions 7, 12). -/
def Obligations.UnknownOpcodeHalts : Prop :=
  ∀ s : State, s.run = .running → s.pc.toNat + 10 ≤ s.cfg.memSize.toNat →
    (∀ m, s.cfg.opcodes.get m ≠ opcodeOf s.fetchWord) →
    ∃ t, step s = .next t ∧
      HaltedWith ⟨.unknownOpcode, opcodeOf s.fetchWord, s.pc, 0x00000000⟩ { s with pc := s.pc + 10 } t ∧
      t.halt.reason.code = 3

/-- MemoryFault (R94, derived there): an instruction answers a next state on every state; it halts a running
dispatcher exactly when its one data access is out of bounds, with reason 2, its opcode, its address and
the accessed address, and no effect of its own. `pc` after it is the spec's decision D8,
the code is D10, `fault_addr` is D20 (assumptions 7, 12). -/
def Obligations.MemoryFaultExactlyOutOfBounds : Prop :=
  ∀ (i : Instr) (s : State), s.run = .running →
    ∃ t, exec i s = .next t ∧
      (t.run = .halted ↔ ∃ a, dataAddress i s = some a ∧ s.cfg.memSize.toNat < a.toNat + 4) ∧
      (∀ a, dataAddress i s = some a → s.cfg.memSize.toNat < a.toNat + 4 →
        MemoryFaulted (s.cfg.opcodes.get i.mnemonic) a s t ∧ t.halt.reason.code = 2)

/-- Halted has no step (R48): the state does not change, however many steps the host issues. -/
def Obligations.HaltedHasNoStep : Prop :=
  ∀ s : State, s.run = .halted →
    ∀ k : Nat, Host.Core.run Sys2Proof.core k s = .next s

/-- Exactly three conditions halt a running dispatcher, tested in the order of R100: the fetch does not fit;
the opcode is unassigned; the instruction's data access is out of bounds (R93, R100). The codes are the
spec's decision D10. -/
def Obligations.OnlyThreeHaltingConditions : Prop :=
  ∀ s t : State, s.run = .running → step s = .next t →
    (t.run = .halted ∧ t.halt.reason.code = 1 ∧ s.cfg.memSize.toNat < s.pc.toNat + 10) ∨
    (t.run = .halted ∧ t.halt.reason.code = 3 ∧ s.pc.toNat + 10 ≤ s.cfg.memSize.toNat ∧
      ∀ m, s.cfg.opcodes.get m ≠ opcodeOf s.fetchWord) ∨
    (t.run = .halted ∧ t.halt.reason.code = 2 ∧ s.pc.toNat + 10 ≤ s.cfg.memSize.toNat ∧
      ∃ i a, decode s.cfg s.fetchWord = .ok i ∧ dataAddress i { s with pc := s.pc + 10 } = some a ∧
        s.cfg.memSize.toNat < a.toNat + 4) ∨
    (t.run = .running ∧ t.halt = s.halt ∧ s.pc.toNat + 10 ≤ s.cfg.memSize.toNat ∧
      ∃ i, decode s.cfg s.fetchWord = .ok i ∧
        ∀ a, dataAddress i { s with pc := s.pc + 10 } = some a → a.toNat + 4 ≤ s.cfg.memSize.toNat)

/-- Under the default RESERVED_POLICY a step always answers a next state, whatever the state (R46, R93;
assumption 4). -/
def Obligations.StepAlwaysAnswersNext : Prop :=
  ∀ s : State, s.cfg.reservedPolicy = .ignore → ∃ t, step s = .next t

/-- A halt is precise (R101, R114): the step that halts changes no register, no memory byte and not `sp`; it
records the address it began at; and `pc` is that address for EndOfProgram and 10 past it otherwise (the
spec's decision D8, assumption 7). -/
def Obligations.HaltChangesNoRegisterMemoryOrSp : Prop :=
  ∀ s t : State, s.run = .running → step s = .next t → t.run = .halted →
    SameRegs s t ∧ SameMem s t ∧ t.sp = s.sp ∧ t.cfg = s.cfg ∧ t.halt.addr = s.pc ∧
    t.pc = (if t.halt.reason = .endOfProgram then s.pc else s.pc + 10)

/-- After a halt of any kind the host's read-outs answer as before it: every register (r15 too), `sp` and
memory; and running on changes nothing (R114). -/
def Obligations.HaltKeepsReadouts : Prop :=
  ∀ x y : Session, portStep x = .next y → y.core.run = .halted →
    (∀ i, portReadReg y i = portReadReg x i) ∧ portReadSp y = portReadSp x ∧
    (∀ a n, portReadMem y a n = portReadMem x a n) ∧
    ∀ fuel, portRun fuel y = .next y

/-- The table of register writers (R9, derived there): an instruction changes no register but the one the
table gives it. -/
def Obligations.OnlyListedRegisterIsWritten : Prop :=
  ∀ (i : Instr) (s t : State), exec i s = .next t →
    ∀ j : Fin 16, writtenReg i ≠ some j → t.readReg j = s.readReg j

/-- The accumulator is hidden (R8): two states that differ in `x[15]` at most are told apart by no step, only
by the host's read-out. A step that writes the accumulator leaves the SAME `x[15]` in both, so what it writes
does not depend on the old value; any other step leaves both as they were. And only the instructions of R9's
accumulator row write it. -/
def Obligations.AccumulatorIsHidden : Prop :=
  (∀ s s' : State, AgreeButAcc s s' →
    (∃ t t', step s = .next t ∧ step s' = .next t' ∧ AgreeButAcc t t' ∧
      (StepWritesAcc s → t'.readReg 15 = t.readReg 15) ∧
      (¬ StepWritesAcc s → t.readReg 15 = s.readReg 15 ∧ t'.readReg 15 = s'.readReg 15)) ∨
    (∃ m, step s = .refused (.reservedBits m) ∧ step s' = .refused (.reservedBits m))) ∧
  (∀ (i : Instr) (s t : State), exec i s = .next t → t.readReg 15 ≠ s.readReg 15 →
    i.mnemonic ∈ [.or, .and, .xor, .nand, .nor, .not, .add, .sub, .mul, .div, .exp,
      .gt, .lt, .eq, .ne, .ge, .le]) ∧
  (∀ (x : Session) (v : Word), portReadReg { x with core := x.core.writeAcc v } 15 = v)

/-- Every step keeps the invariant: canonical memory inside `[0, MEM_SIZE)` and a halt record that says why
the dispatcher halted. -/
def Obligations.StepKeepsInvariant : Prop :=
  ∀ s t : State, Inv s → step s = .next t → Inv t

/-- The state after reset has the invariant, for every choice of the parameters. -/
def Obligations.ResetHasInvariant : Prop :=
  ∀ c : Config, Inv (State.resetWith c) ∧ Inv State.reset

/-- The parameters are fixed for the lifetime of an instance (R1, R2): no step and no port changes them. -/
def Obligations.ParametersNeverChange : Prop :=
  (∀ s t : State, step s = .next t → t.cfg = s.cfg) ∧
  (∀ (x y : Session) (fuel : Nat), portRun fuel x = .next y → y.core.cfg = x.core.cfg) ∧
  (∀ (x y : Session) (off : Word) (bs : List Byte), portLoad off bs x = .next y → y.core.cfg = x.core.cfg)

/-- `HALT` = `JMP 0xFFFFFFFF` ends the run with EndOfProgram at the next step, for every MEM_SIZE (R47,
derived there from R49 and R1). -/
def Obligations.HaltPseudoInstructionEndsRun : Prop :=
  ∀ (s : State) (u : Word), s.run = .running →
    ∃ t t', exec (.jmp 0xFFFFFFFF u) s = .next t ∧ step t = .next t' ∧
      HaltedWith ⟨.endOfProgram, 0, 0xFFFFFFFF, 0⟩ t t'

/-- `JMR -10` jumps to itself and the machine runs forever: the step leaves the whole state as it was (R54,
R74, R117). -/
def Obligations.JmrMinusTenLoopsForever : Prop :=
  ∀ (s : State) (u : Word) (k : Nat), s.run = .running → s.pc.toNat + 10 ≤ s.cfg.memSize.toNat →
    decode s.cfg s.fetchWord = .ok (.jmr 0xFFFFFFF6 u) →
    Host.Core.run Sys2Proof.core k s = .next s
end

