-- ==== Sys2Proof/Laws/Decode.lean ====
section
/-! SUPPORT. The fields of a packed word, register fields to and from operand fields, and the opcode lookup
(30_encoding.md R40 to R45). -/

namespace Sys2Proof

/-- Concatenation as arithmetic, the left part the more significant (00_scope.md, section 5). -/
theorem append_toNat {m n : Nat} (x : BitVec m) (y : BitVec n) :
    (x ++ y).toNat = x.toNat * 2 ^ n + y.toNat := by
  rw [BitVec.toNat_append, ← Nat.shiftLeft_add_eq_or_of_lt y.isLt, Nat.shiftLeft_eq]

/-- A bit slice as arithmetic. -/
theorem slice_toNat {n : Nat} (x : BitVec n) (lo len : Nat) :
    (x.extractLsb' lo len).toNat = x.toNat / 2 ^ lo % 2 ^ len := by
  rw [BitVec.extractLsb'_toNat, Nat.shiftRight_eq_div_pow]

theorem packWord_toNat (op : Opcode) (a b : Word) :
    (packWord op a b).toNat = (op.toNat * 2 ^ 32 + a.toNat) * 2 ^ 32 + b.toNat := by
  simp only [packWord, append_toNat]

@[simp] theorem opcodeOf_packWord (op : Opcode) (a b : Word) : opcodeOf (packWord op a b) = op := by
  apply BitVec.eq_of_toNat_eq
  have := op.isLt; have := a.isLt; have := b.isLt
  rw [opcodeOf, slice_toNat, packWord_toNat]; omega

@[simp] theorem fieldA_packWord (op : Opcode) (a b : Word) : fieldA (packWord op a b) = a := by
  apply BitVec.eq_of_toNat_eq
  have := op.isLt; have := a.isLt; have := b.isLt
  rw [fieldA, slice_toNat, packWord_toNat]; omega

@[simp] theorem fieldB_packWord (op : Opcode) (a b : Word) : fieldB (packWord op a b) = b := by
  apply BitVec.eq_of_toNat_eq
  have := op.isLt; have := a.isLt; have := b.isLt
  rw [fieldB, slice_toNat, packWord_toNat]; omega

/-- A word is its opcode and its two fields: no bit is left over (R40). -/
theorem packWord_fields (w : InstrWord) : packWord (opcodeOf w) (fieldA w) (fieldB w) = w := by
  apply BitVec.eq_of_toNat_eq
  have := w.isLt
  rw [packWord_toNat, opcodeOf, fieldA, fieldB, slice_toNat, slice_toNat, slice_toNat]; omega

@[simp] theorem RegField.ofField_toField (f : RegField) : RegField.ofField f.toField = f := by
  obtain ⟨rsv, idx⟩ := f
  have := rsv.isLt; have := idx.isLt
  have h1 : (rsv ++ idx : Word).extractLsb' 8 24 = rsv := by
    apply BitVec.eq_of_toNat_eq; rw [slice_toNat, append_toNat]; omega
  have h2 : (rsv ++ idx : Word).extractLsb' 0 8 = idx := by
    apply BitVec.eq_of_toNat_eq; rw [slice_toNat, append_toNat]; omega
  simp only [RegField.ofField, RegField.toField, h1, h2]

@[simp] theorem RegField.toField_ofField (w : Word) : (RegField.ofField w).toField = w := by
  apply BitVec.eq_of_toNat_eq
  have := w.isLt
  simp only [RegField.ofField, RegField.toField]
  rw [append_toNat, slice_toNat, slice_toNat]; omega

theorem Mnemonic.mem_all (m : Mnemonic) : m ∈ Mnemonic.all := by
  cases m <;> decide

/-- An opcode that is found is the opcode of the mnemonic found, for any map (R44, R51). -/
theorem OpcodeMap.get_of_lookup {t : OpcodeMap} {op : Opcode} {m : Mnemonic} (h : t.lookup op = some m) :
    t.get m = op := by
  simpa using List.find?_some h

/-- An opcode is unassigned exactly when no mnemonic maps to it (R45). -/
theorem OpcodeMap.lookup_eq_none (t : OpcodeMap) (op : Opcode) :
    t.lookup op = none ↔ ∀ m, t.get m ≠ op := by
  simp only [OpcodeMap.lookup, List.find?_eq_none, beq_iff_eq]
  exact ⟨fun h m => h m m.mem_all, fun h m _ => h m⟩

/-- Under an injective map, the opcode of a mnemonic is found as that mnemonic (R2, R44). -/
theorem OpcodeMap.lookup_get {t : OpcodeMap} (h : t.injective = true) (m : Mnemonic) :
    t.lookup (t.get m) = some m := by
  have hinj : ∀ n, t.get n = t.get m → n = m := fun n hn =>
    List.inj_on_of_nodup_map (of_decide_eq_true h) n.mem_all m.mem_all hn
  cases hf : t.lookup (t.get m) with
  | none => exact absurd rfl ((t.lookup_eq_none _).mp hf m)
  | some n => rw [hinj n (OpcodeMap.get_of_lookup hf)]

@[simp] theorem instrOf_mnemonic (m : Mnemonic) (a b : Word) : (instrOf m a b).mnemonic = m := by
  cases m <;> rfl

@[simp] theorem instrOf_operandA (m : Mnemonic) (a b : Word) : (instrOf m a b).operandA = a := by
  cases m <;> simp [instrOf, Instr.operandA]

@[simp] theorem instrOf_operandB (m : Mnemonic) (a b : Word) : (instrOf m a b).operandB = b := by
  cases m <;> simp [instrOf, Instr.operandB]

/-- Everything the decoder can answer (R41, R45, R51; I1). -/
theorem decode_cases (c : Config) (w : InstrWord) :
    (c.opcodes.lookup (opcodeOf w) = none ∧ decode c w = .error (.unknownOpcode (opcodeOf w))) ∨
    (∃ m, c.opcodes.lookup (opcodeOf w) = some m ∧
      (instrOf m (fieldA w) (fieldB w)).wellFormed c = true ∧
      decode c w = .ok (instrOf m (fieldA w) (fieldB w))) ∨
    (∃ m, c.opcodes.lookup (opcodeOf w) = some m ∧
      (instrOf m (fieldA w) (fieldB w)).wellFormed c = false ∧
      decode c w = .error (.reservedBits m)) := by
  simp only [decode]
  cases hl : c.opcodes.lookup (opcodeOf w) with
  | none => exact .inl ⟨rfl, rfl⟩
  | some m =>
    cases hw : (instrOf m (fieldA w) (fieldB w)).wellFormed c
    · exact .inr (.inr ⟨m, rfl, hw, by simp [hw]⟩)
    · exact .inr (.inl ⟨m, rfl, hw, by simp [hw]⟩)

/-- Two neighbouring slices are one slice. -/
theorem slice_append {n : Nat} (x : BitVec n) (lo m k : Nat) :
    x.extractLsb' (lo + k) m ++ x.extractLsb' lo k = x.extractLsb' lo (m + k) := by
  ext i hi
  simp only [BitVec.getElem_append, BitVec.getElem_extractLsb']
  split
  · rfl
  · congr 1; omega

/-- The ten bytes of a word make the word again (R25, R40). -/
theorem wordOfBytes_bytesOfWord (w : InstrWord) : wordOfBytes (bytesOfWord w) = some w := by
  have hl : bytesOfWord w = [wordByte w 0, wordByte w 1, wordByte w 2, wordByte w 3, wordByte w 4,
      wordByte w 5, wordByte w 6, wordByte w 7, wordByte w 8, wordByte w 9] := rfl
  have ho : wordByte w 0 ++ wordByte w 1 = opcodeOf w := slice_append w 64 8 8
  have ha : wordByte w 2 ++ wordByte w 3 ++ wordByte w 4 ++ wordByte w 5 = fieldA w := by
    rw [show wordByte w 2 ++ wordByte w 3 = w.extractLsb' 48 16 from slice_append w 48 8 8,
      show w.extractLsb' 48 16 ++ wordByte w 4 = w.extractLsb' 40 24 from slice_append w 40 16 8]
    exact slice_append w 32 24 8
  have hb : wordByte w 6 ++ wordByte w 7 ++ wordByte w 8 ++ wordByte w 9 = fieldB w := by
    rw [show wordByte w 6 ++ wordByte w 7 = w.extractLsb' 16 16 from slice_append w 16 8 8,
      show w.extractLsb' 16 16 ++ wordByte w 8 = w.extractLsb' 8 24 from slice_append w 8 16 8]
    exact slice_append w 0 24 8
  rw [hl, wordOfBytes, ho, ha, hb, packWord_fields]

end Sys2Proof
end

