-- ==== Sys2Proof/Laws/Memory.lean ====
section
/-! SUPPORT. The laws of memory: a read after a write of a byte, a word or a block, and the proof that every
memory operation keeps the canonical form and stays inside the address space (20_memory.md R20 to R33). -/

namespace Sys2Proof.Machine

open Sys2Proof Host

/-! ### Reads after writes -/

@[simp] theorem Memory.read_nil (a : Nat) : Memory.read [] a = Memory.unlisted := rfl

theorem Memory.read_cons (k : Nat) (v : Byte) (m : Memory) (a : Nat) :
    Memory.read ((k, v) :: m) a = if k = a then v else m.read a := rfl

theorem Memory.read_erase (m : Memory) (a b : Nat) :
    (m.erase a).read b = if b = a then Memory.unlisted else m.read b := by
  induction m with
  | nil => simp [Memory.erase]
  | cons c m ih =>
    obtain ⟨k, w⟩ := c
    simp only [Memory.erase, List.filter_cons] at ih ⊢
    by_cases hk : k = a
    · subst hk
      by_cases hb : b = k
      · simp_all
      · simp_all [Memory.read_cons, Ne.symm hb]
    · by_cases hb : b = a
      · simp_all [Memory.read_cons]
      · simp_all [Memory.read_cons]

theorem Memory.read_insert (m : Memory) (a b : Nat) (v : Byte) (h : ∀ c ∈ m, c.1 ≠ a) :
    (m.insert a v).read b = if b = a then v else m.read b := by
  induction m with
  | nil => simp [Memory.insert, Memory.read_cons, eq_comm]
  | cons c m ih =>
    obtain ⟨k, w⟩ := c
    have hk : k ≠ a := h (k, w) (by simp)
    have ih := ih fun c hc => h c (by simp [hc])
    simp only [Memory.insert]
    split
    · by_cases hb : b = a
      · subst hb; simp [Memory.read_cons]
      · simp [Memory.read_cons, Ne.symm hb, hb]
    · rw [Memory.read_cons, ih, Memory.read_cons]
      by_cases hb : b = a
      · subst hb; simp [hk]
      · simp [hb]

theorem Memory.erase_ne (m : Memory) (a : Nat) : ∀ c ∈ m.erase a, c.1 ≠ a := by
  intro c hc
  simpa using (List.mem_filter.mp hc).2

/-- Everything a byte write can do to a byte read (R32). -/
theorem Memory.read_write (m : Memory) (a b : Nat) (v : Byte) :
    (m.write a v).read b = if b = a then v else m.read b := by
  simp only [Memory.write]
  split
  · next h => rw [Memory.read_erase, h]
  · rw [Memory.read_insert _ _ _ _ (m.erase_ne a), Memory.read_erase]
    by_cases hb : b = a <;> simp [hb]

/-- Everything a word write can do to a byte read (R24, R38). -/
theorem Memory.read_writeWord (m : Memory) (a b : Nat) (v : Word) :
    (m.writeWord a v).read b =
      if b = a then v.extractLsb' 24 8
      else if b = a + 1 then v.extractLsb' 16 8
      else if b = a + 2 then v.extractLsb' 8 8
      else if b = a + 3 then v.extractLsb' 0 8
      else m.read b := by
  simp only [Memory.writeWord, Memory.read_write]
  repeat' split
  all_goals first | rfl | omega

theorem Memory.read_writeWord_outside (m : Memory) (a b : Nat) (v : Word) (h : b < a ∨ a + 4 ≤ b) :
    (m.writeWord a v).read b = m.read b := by
  rw [Memory.read_writeWord, if_neg (by omega), if_neg (by omega), if_neg (by omega), if_neg (by omega)]

/-- The same by the place of the byte in the word: byte `b - a` of the word inside it, the old byte outside. -/
theorem Memory.read_writeWord_slice (m : Memory) (a b : Nat) (v : Word) :
    (m.writeWord a v).read b =
      if a ≤ b ∧ b < a + 4 then v.extractLsb' (8 * (3 - (b - a))) 8 else m.read b := by
  split
  · next h =>
    obtain rfl | rfl | rfl | rfl : b = a ∨ b = a + 1 ∨ b = a + 2 ∨ b = a + 3 := by omega
    all_goals simp [Memory.read_writeWord]
  · next h => exact Memory.read_writeWord_outside m a b v (by omega)

/-- A word as arithmetic of its four bytes, the first the most significant (R24). -/
theorem Memory.readWord_toNat (m : Memory) (a : Nat) :
    (m.readWord a).toNat = (((m.read a).toNat * 2 ^ 8 + (m.read (a + 1)).toNat) * 2 ^ 8 +
      (m.read (a + 2)).toNat) * 2 ^ 8 + (m.read (a + 3)).toNat := by
  simp only [Memory.readWord, append_toNat]

/-- Byte `k` of the instruction word at `a` is the memory byte at `a + k` (R25, R40). -/
theorem Memory.readInstr_slice (m : Memory) (a k : Nat) (h : k < 10) :
    (m.readInstr a).extractLsb' (8 * (9 - k)) 8 = m.read (a + k) := by
  have hop : (m.read a ++ m.read (a + 1) : Opcode).toNat = _ := append_toNat (m.read a) (m.read (a + 1))
  have hb : ∀ b, (m.read b).toNat < 2 ^ 8 := fun b => (m.read b).isLt
  have h0 := hb a; have h1 := hb (a + 1); have h2 := hb (a + 2); have h3 := hb (a + 3)
  have h4 := hb (a + 4); have h5 := hb (a + 5); have h6 := hb (a + 6); have h7 := hb (a + 7)
  have h8 := hb (a + 8); have h9 := hb (a + 9)
  apply BitVec.eq_of_toNat_eq
  rw [slice_toNat, Memory.readInstr, packWord_toNat, hop, Memory.readWord_toNat, Memory.readWord_toNat]
  obtain rfl | rfl | rfl | rfl | rfl | rfl | rfl | rfl | rfl | rfl :
    k = 0 ∨ k = 1 ∨ k = 2 ∨ k = 3 ∨ k = 4 ∨ k = 5 ∨ k = 6 ∨ k = 7 ∨ k = 8 ∨ k = 9 := by omega
  all_goals simp only [Nat.add_assoc, Nat.reduceAdd, Nat.reduceSub, Nat.reduceMul, Nat.add_zero]; omega

/-- Everything a block write can do to a byte read (R30). -/
theorem Memory.read_writeBytes (bs : List Byte) (m : Memory) (a b : Nat) :
    (m.writeBytes a bs).read b = if a ≤ b ∧ b < a + bs.length then bs.getD (b - a) 0 else m.read b := by
  induction bs generalizing m a with
  | nil => simp [Memory.writeBytes]
  | cons x xs ih =>
    simp only [Memory.writeBytes, ih, Memory.read_write, List.length_cons]
    by_cases h1 : b = a
    · subst h1
      rw [if_neg (by omega), if_pos rfl, if_pos (by omega)]
      simp
    · by_cases h2 : a + 1 ≤ b ∧ b < a + 1 + xs.length
      · rw [if_pos h2, if_pos (by omega)]
        have : b - a = (b - (a + 1)) + 1 := by omega
        rw [this, List.getD_cons_succ]
      · rw [if_neg h2, if_neg h1, if_neg (by omega)]

/-! ### The canonical form -/

theorem Memory.wf_iff (m : Memory) :
    m.wf = true ↔ m.Pairwise (fun c d => c.1 < d.1) ∧ ∀ c ∈ m, c.2 ≠ Memory.unlisted := by
  simp [Memory.wf]

theorem Memory.wf_nil : Memory.wf [] = true := rfl

theorem Memory.erase_wf (m : Memory) (a : Nat) (h : m.wf = true) : (m.erase a).wf = true := by
  rw [Memory.wf_iff] at h ⊢
  exact ⟨h.1.filter _, fun c hc => h.2 c (List.mem_filter.mp hc).1⟩

theorem Memory.mem_insert {m : Memory} {a : Nat} {v : Byte} {c : Cell} (h : c ∈ m.insert a v) :
    c = (a, v) ∨ c ∈ m := by
  induction m with
  | nil => exact .inl (by simpa [Memory.insert] using h)
  | cons d m ih =>
    obtain ⟨k, w⟩ := d
    simp only [Memory.insert] at h
    split at h
    · simpa using h
    · rcases List.mem_cons.mp h with h | h
      · exact .inr (by simp [h])
      · exact (ih h).imp id (by simp +contextual)

theorem Memory.insert_pairwise (m : Memory) (a : Nat) (v : Byte) (hne : ∀ c ∈ m, c.1 ≠ a)
    (h : m.Pairwise fun c d => c.1 < d.1) : (m.insert a v).Pairwise fun c d => c.1 < d.1 := by
  induction m with
  | nil => simp [Memory.insert]
  | cons d m ih =>
    obtain ⟨k, w⟩ := d
    rw [List.pairwise_cons] at h
    have hka : k ≠ a := hne (k, w) (by simp)
    simp only [Memory.insert]
    split
    · next hlt =>
      refine List.pairwise_cons.mpr ⟨fun c hc => ?_, List.pairwise_cons.mpr h⟩
      rcases List.mem_cons.mp hc with rfl | hc
      · exact hlt
      · exact hlt.trans (h.1 c hc)
    · refine List.pairwise_cons.mpr ⟨fun c hc => ?_, ih (fun c hc => hne c (by simp [hc])) h.2⟩
      rcases Memory.mem_insert hc with rfl | hc
      · show k < a; omega
      · exact h.1 c hc

/-- A byte write keeps the canonical form. -/
theorem Memory.write_wf (m : Memory) (a : Nat) (v : Byte) (h : m.wf = true) : (m.write a v).wf = true := by
  have he := m.erase_wf a h
  simp only [Memory.write]
  split
  · exact he
  · next hv =>
    rw [Memory.wf_iff] at he ⊢
    refine ⟨Memory.insert_pairwise _ _ _ (m.erase_ne a) he.1, fun c hc => ?_⟩
    rcases Memory.mem_insert hc with rfl | hc
    · exact hv
    · exact he.2 c hc

/-- A word write keeps the canonical form. -/
theorem Memory.writeWord_wf (m : Memory) (a : Nat) (v : Word) (h : m.wf = true) :
    (m.writeWord a v).wf = true :=
  Memory.write_wf _ _ _ (Memory.write_wf _ _ _ (Memory.write_wf _ _ _ (Memory.write_wf _ _ _ h)))

/-- A block write keeps the canonical form. -/
theorem Memory.writeBytes_wf (bs : List Byte) (m : Memory) (a : Nat) (h : m.wf = true) :
    (m.writeBytes a bs).wf = true := by
  induction bs generalizing m a with
  | nil => exact h
  | cons x xs ih => exact ih _ _ (Memory.write_wf m a x h)

/-- The reset memory is in canonical form. -/
theorem State.resetWith_mem_wf (c : Config) : (State.resetWith c).mem.wf = true := rfl

/-! ### The address space -/

theorem Memory.within_iff (size : Nat) (m : Memory) : m.within size = true ↔ ∀ c ∈ m, c.1 < size := by
  simp [Memory.within]

/-- A byte write inside the address space lists no address outside it. -/
theorem Memory.write_within (size : Nat) (m : Memory) (a : Nat) (v : Byte) (ha : a < size)
    (h : m.within size = true) : (m.write a v).within size = true := by
  rw [Memory.within_iff] at h ⊢
  have he : ∀ c ∈ m.erase a, c.1 < size := fun c hc => h c (List.mem_filter.mp hc).1
  intro c hc
  simp only [Memory.write] at hc
  split at hc
  · exact he c hc
  · rcases Memory.mem_insert hc with rfl | hc
    · exact ha
    · exact he c hc

/-- A word write inside the address space lists no address outside it. -/
theorem Memory.writeWord_within (size : Nat) (m : Memory) (a : Nat) (v : Word) (ha : a + 4 ≤ size)
    (h : m.within size = true) : (m.writeWord a v).within size = true :=
  Memory.write_within _ _ _ _ (by omega) (Memory.write_within _ _ _ _ (by omega)
    (Memory.write_within _ _ _ _ (by omega) (Memory.write_within _ _ _ _ (by omega) h)))

/-- A block write inside the address space lists no address outside it. -/
theorem Memory.writeBytes_within (size : Nat) (bs : List Byte) (m : Memory) (a : Nat)
    (ha : a + bs.length ≤ size) (h : m.within size = true) : (m.writeBytes a bs).within size = true := by
  induction bs generalizing m a with
  | nil => exact h
  | cons x xs ih =>
    simp only [List.length_cons] at ha
    exact ih _ _ (by omega) (Memory.write_within size m a x (by omega) h)

end Sys2Proof.Machine
end

