-- ==== Sys2Proof/Laws/Ops.lean ====
section
/-! SUPPORT. For each shared operation, once, everything it can answer (20_memory.md R26, 30_encoding.md
R53, 60_exceptions.md R94). None of them answers a fault or a refusal. -/

namespace Sys2Proof.Machine

open Sys2Proof Host

variable {s t : State} {m : Mnemonic} {a v : Word}

/-- A load either delivers the word to the instruction or halts with MemoryFault. -/
theorem State.load_cases {k : Word → State} (h : s.load m a k = .next t) :
    (s.wordFits a ∧ t = k (s.mem.readWord a.toNat)) ∨ (¬ s.wordFits a ∧ t = s.haltMemoryFault m a) := by
  simp only [State.load] at h
  split at h
  · next hf => exact .inl ⟨hf, (Outcome.next.inj h).symm⟩
  · next hf => exact .inr ⟨hf, (Outcome.next.inj h).symm⟩

theorem State.load_fits {k : Word → State} (h : s.wordFits a) :
    s.load m a k = .next (k (s.mem.readWord a.toNat)) := if_pos h

theorem State.load_faults {k : Word → State} (h : ¬ s.wordFits a) :
    s.load m a k = .next (s.haltMemoryFault m a) := if_neg h

/-- A store either writes the word, and the instruction goes on, or halts with MemoryFault. -/
theorem State.store_cases {k : State → State} (h : s.store m a v k = .next t) :
    (s.wordFits a ∧ t = k (s.writeMem (s.mem.writeWord a.toNat v))) ∨
    (¬ s.wordFits a ∧ t = s.haltMemoryFault m a) := by
  simp only [State.store] at h
  split at h
  · next hf => exact .inl ⟨hf, (Outcome.next.inj h).symm⟩
  · next hf => exact .inr ⟨hf, (Outcome.next.inj h).symm⟩

theorem State.store_fits {k : State → State} (h : s.wordFits a) :
    s.store m a v k = .next (k (s.writeMem (s.mem.writeWord a.toNat v))) := if_pos h

theorem State.store_faults {k : State → State} (h : ¬ s.wordFits a) :
    s.store m a v k = .next (s.haltMemoryFault m a) := if_neg h

/-- A push either stores below `sp` and moves `sp` there, or halts with MemoryFault. -/
theorem State.push_cases {k : State → State} (h : s.push m v k = .next t) :
    (s.wordFits s.pushAddr ∧
      t = k ((s.writeMem (s.mem.writeWord s.pushAddr.toNat v)).writeSp s.pushAddr)) ∨
    (¬ s.wordFits s.pushAddr ∧ t = s.haltMemoryFault m s.pushAddr) :=
  State.store_cases h

theorem State.push_fits {k : State → State} (h : s.wordFits s.pushAddr) :
    s.push m v k = .next (k ((s.writeMem (s.mem.writeWord s.pushAddr.toNat v)).writeSp s.pushAddr)) :=
  if_pos h

theorem State.push_faults {k : State → State} (h : ¬ s.wordFits s.pushAddr) :
    s.push m v k = .next (s.haltMemoryFault m s.pushAddr) := if_neg h

/-- A pop either delivers the word at `sp` and moves `sp` above it, or halts with MemoryFault. -/
theorem State.pop_cases {k : Word → State → State} (h : s.pop m k = .next t) :
    (s.wordFits s.sp ∧ t = k (s.mem.readWord s.sp.toNat) (s.writeSp (s.sp + 4))) ∨
    (¬ s.wordFits s.sp ∧ t = s.haltMemoryFault m s.sp) :=
  State.load_cases h

theorem State.pop_fits {k : Word → State → State} (h : s.wordFits s.sp) :
    s.pop m k = .next (k (s.mem.readWord s.sp.toNat) (s.writeSp (s.sp + 4))) := if_pos h

theorem State.pop_faults {k : Word → State → State} (h : ¬ s.wordFits s.sp) :
    s.pop m k = .next (s.haltMemoryFault m s.sp) := if_neg h

/-- The instruction address after the advance is where the fetch began (R11, R50). -/
@[simp] theorem State.instrAddr_advancePc (s : State) : s.advancePc.instrAddr = s.pc := by
  simp [State.instrAddr, State.advancePc, State.writePc]

end Sys2Proof.Machine
end

