-- ==== Sys2Proof/Laws/State.lean ====
section
/-! SUPPORT. One lemma per field per update of the state, so that no later proof unfolds a record update. -/

namespace Sys2Proof.Machine

open Sys2Proof

variable (s : State)

@[simp] theorem State.writeReg_cfg (i : Fin 16) (v : Word) : (s.writeReg i v).cfg = s.cfg := rfl
@[simp] theorem State.writeReg_regs (i : Fin 16) (v : Word) : (s.writeReg i v).regs = s.regs.set i v := rfl
@[simp] theorem State.writeReg_pc (i : Fin 16) (v : Word) : (s.writeReg i v).pc = s.pc := rfl
@[simp] theorem State.writeReg_sp (i : Fin 16) (v : Word) : (s.writeReg i v).sp = s.sp := rfl
@[simp] theorem State.writeReg_run (i : Fin 16) (v : Word) : (s.writeReg i v).run = s.run := rfl
@[simp] theorem State.writeReg_halt (i : Fin 16) (v : Word) : (s.writeReg i v).halt = s.halt := rfl
@[simp] theorem State.writeReg_mem (i : Fin 16) (v : Word) : (s.writeReg i v).mem = s.mem := rfl

@[simp] theorem State.writeAcc_cfg (v : Word) : (s.writeAcc v).cfg = s.cfg := rfl
@[simp] theorem State.writeAcc_regs (v : Word) : (s.writeAcc v).regs = s.regs.set 15 v := rfl
@[simp] theorem State.writeAcc_pc (v : Word) : (s.writeAcc v).pc = s.pc := rfl
@[simp] theorem State.writeAcc_sp (v : Word) : (s.writeAcc v).sp = s.sp := rfl
@[simp] theorem State.writeAcc_run (v : Word) : (s.writeAcc v).run = s.run := rfl
@[simp] theorem State.writeAcc_halt (v : Word) : (s.writeAcc v).halt = s.halt := rfl
@[simp] theorem State.writeAcc_mem (v : Word) : (s.writeAcc v).mem = s.mem := rfl

@[simp] theorem State.writeRegOperand_cfg (f : RegField) (v : Word) : (s.writeRegOperand f v).cfg = s.cfg := rfl
@[simp] theorem State.writeRegOperand_regs (f : RegField) (v : Word) : (s.writeRegOperand f v).regs = s.regs.set (regIndex f) v := rfl
@[simp] theorem State.writeRegOperand_pc (f : RegField) (v : Word) : (s.writeRegOperand f v).pc = s.pc := rfl
@[simp] theorem State.writeRegOperand_sp (f : RegField) (v : Word) : (s.writeRegOperand f v).sp = s.sp := rfl
@[simp] theorem State.writeRegOperand_run (f : RegField) (v : Word) : (s.writeRegOperand f v).run = s.run := rfl
@[simp] theorem State.writeRegOperand_halt (f : RegField) (v : Word) : (s.writeRegOperand f v).halt = s.halt := rfl
@[simp] theorem State.writeRegOperand_mem (f : RegField) (v : Word) : (s.writeRegOperand f v).mem = s.mem := rfl

@[simp] theorem State.writePc_cfg (v : Word) : (s.writePc v).cfg = s.cfg := rfl
@[simp] theorem State.writePc_regs (v : Word) : (s.writePc v).regs = s.regs := rfl
@[simp] theorem State.writePc_pc (v : Word) : (s.writePc v).pc = v := rfl
@[simp] theorem State.writePc_sp (v : Word) : (s.writePc v).sp = s.sp := rfl
@[simp] theorem State.writePc_run (v : Word) : (s.writePc v).run = s.run := rfl
@[simp] theorem State.writePc_halt (v : Word) : (s.writePc v).halt = s.halt := rfl
@[simp] theorem State.writePc_mem (v : Word) : (s.writePc v).mem = s.mem := rfl

@[simp] theorem State.writeSp_cfg (v : Word) : (s.writeSp v).cfg = s.cfg := rfl
@[simp] theorem State.writeSp_regs (v : Word) : (s.writeSp v).regs = s.regs := rfl
@[simp] theorem State.writeSp_pc (v : Word) : (s.writeSp v).pc = s.pc := rfl
@[simp] theorem State.writeSp_sp (v : Word) : (s.writeSp v).sp = v := rfl
@[simp] theorem State.writeSp_run (v : Word) : (s.writeSp v).run = s.run := rfl
@[simp] theorem State.writeSp_halt (v : Word) : (s.writeSp v).halt = s.halt := rfl
@[simp] theorem State.writeSp_mem (v : Word) : (s.writeSp v).mem = s.mem := rfl

@[simp] theorem State.writeMem_cfg (m : Memory) : (s.writeMem m).cfg = s.cfg := rfl
@[simp] theorem State.writeMem_regs (m : Memory) : (s.writeMem m).regs = s.regs := rfl
@[simp] theorem State.writeMem_pc (m : Memory) : (s.writeMem m).pc = s.pc := rfl
@[simp] theorem State.writeMem_sp (m : Memory) : (s.writeMem m).sp = s.sp := rfl
@[simp] theorem State.writeMem_run (m : Memory) : (s.writeMem m).run = s.run := rfl
@[simp] theorem State.writeMem_halt (m : Memory) : (s.writeMem m).halt = s.halt := rfl
@[simp] theorem State.writeMem_mem (m : Memory) : (s.writeMem m).mem = m := rfl

@[simp] theorem State.advancePc_cfg : (s.advancePc).cfg = s.cfg := rfl
@[simp] theorem State.advancePc_regs : (s.advancePc).regs = s.regs := rfl
@[simp] theorem State.advancePc_pc : (s.advancePc).pc = s.pc + 10 := rfl
@[simp] theorem State.advancePc_sp : (s.advancePc).sp = s.sp := rfl
@[simp] theorem State.advancePc_run : (s.advancePc).run = s.run := rfl
@[simp] theorem State.advancePc_halt : (s.advancePc).halt = s.halt := rfl
@[simp] theorem State.advancePc_mem : (s.advancePc).mem = s.mem := rfl

@[simp] theorem State.enterHalt_cfg (r : HaltRecord) : (s.enterHalt r).cfg = s.cfg := rfl
@[simp] theorem State.enterHalt_regs (r : HaltRecord) : (s.enterHalt r).regs = s.regs := rfl
@[simp] theorem State.enterHalt_pc (r : HaltRecord) : (s.enterHalt r).pc = s.pc := rfl
@[simp] theorem State.enterHalt_sp (r : HaltRecord) : (s.enterHalt r).sp = s.sp := rfl
@[simp] theorem State.enterHalt_run (r : HaltRecord) : (s.enterHalt r).run = .halted := rfl
@[simp] theorem State.enterHalt_halt (r : HaltRecord) : (s.enterHalt r).halt = r := rfl
@[simp] theorem State.enterHalt_mem (r : HaltRecord) : (s.enterHalt r).mem = s.mem := rfl

@[simp] theorem State.haltEndOfProgram_cfg : (s.haltEndOfProgram).cfg = s.cfg := rfl
@[simp] theorem State.haltEndOfProgram_regs : (s.haltEndOfProgram).regs = s.regs := rfl
@[simp] theorem State.haltEndOfProgram_pc : (s.haltEndOfProgram).pc = s.pc := rfl
@[simp] theorem State.haltEndOfProgram_sp : (s.haltEndOfProgram).sp = s.sp := rfl
@[simp] theorem State.haltEndOfProgram_run : (s.haltEndOfProgram).run = .halted := rfl
@[simp] theorem State.haltEndOfProgram_halt : (s.haltEndOfProgram).halt = ⟨.endOfProgram, 0x0000, s.pc, 0x00000000⟩ := rfl
@[simp] theorem State.haltEndOfProgram_mem : (s.haltEndOfProgram).mem = s.mem := rfl

@[simp] theorem State.haltUnknownOpcode_cfg (op : Opcode) : (s.haltUnknownOpcode op).cfg = s.cfg := rfl
@[simp] theorem State.haltUnknownOpcode_regs (op : Opcode) : (s.haltUnknownOpcode op).regs = s.regs := rfl
@[simp] theorem State.haltUnknownOpcode_pc (op : Opcode) : (s.haltUnknownOpcode op).pc = s.pc := rfl
@[simp] theorem State.haltUnknownOpcode_sp (op : Opcode) : (s.haltUnknownOpcode op).sp = s.sp := rfl
@[simp] theorem State.haltUnknownOpcode_run (op : Opcode) : (s.haltUnknownOpcode op).run = .halted := rfl
@[simp] theorem State.haltUnknownOpcode_halt (op : Opcode) : (s.haltUnknownOpcode op).halt = ⟨.unknownOpcode, op, s.instrAddr, 0x00000000⟩ := rfl
@[simp] theorem State.haltUnknownOpcode_mem (op : Opcode) : (s.haltUnknownOpcode op).mem = s.mem := rfl

@[simp] theorem State.haltMemoryFault_cfg (m : Mnemonic) (a : Word) : (s.haltMemoryFault m a).cfg = s.cfg := rfl
@[simp] theorem State.haltMemoryFault_regs (m : Mnemonic) (a : Word) : (s.haltMemoryFault m a).regs = s.regs := rfl
@[simp] theorem State.haltMemoryFault_pc (m : Mnemonic) (a : Word) : (s.haltMemoryFault m a).pc = s.pc := rfl
@[simp] theorem State.haltMemoryFault_sp (m : Mnemonic) (a : Word) : (s.haltMemoryFault m a).sp = s.sp := rfl
@[simp] theorem State.haltMemoryFault_run (m : Mnemonic) (a : Word) : (s.haltMemoryFault m a).run = .halted := rfl
@[simp] theorem State.haltMemoryFault_halt (m : Mnemonic) (a : Word) : (s.haltMemoryFault m a).halt = ⟨.memoryFault, s.cfg.opcodes.get m, s.instrAddr, a⟩ := rfl
@[simp] theorem State.haltMemoryFault_mem (m : Mnemonic) (a : Word) : (s.haltMemoryFault m a).mem = s.mem := rfl

@[simp] theorem State.storeInstr_cfg (w : InstrWord) : (s.storeInstr w).cfg = s.cfg := rfl
@[simp] theorem State.storeInstr_regs (w : InstrWord) : (s.storeInstr w).regs = s.regs := rfl
@[simp] theorem State.storeInstr_pc (w : InstrWord) : (s.storeInstr w).pc = s.pc := rfl
@[simp] theorem State.storeInstr_sp (w : InstrWord) : (s.storeInstr w).sp = s.sp := rfl
@[simp] theorem State.storeInstr_run (w : InstrWord) : (s.storeInstr w).run = s.run := rfl
@[simp] theorem State.storeInstr_halt (w : InstrWord) : (s.storeInstr w).halt = s.halt := rfl
@[simp] theorem State.storeInstr_mem (w : InstrWord) : (s.storeInstr w).mem = s.mem.writeBytes s.pc.toNat (bytesOfWord w) := rfl

end Sys2Proof.Machine
end

