-- ==== Sys2Proof/Laws/Registers.lean ====
section
/-! SUPPORT. The register file and the operand forms: a read after a write, and where the clamp can point
(10_state.md R7, R8). -/

namespace Sys2Proof.Machine

open Sys2Proof

variable (s : State)

@[simp] theorem State.readReg_writeReg_same (i : Fin 16) (v : Word) : (s.writeReg i v).readReg i = v := by
  simp [State.readReg, State.writeReg]

theorem State.readReg_writeReg_other {i j : Fin 16} (h : j ≠ i) (v : Word) :
    (s.writeReg i v).readReg j = s.readReg j := by
  have hne : i.val ≠ j.val := fun e => h (Fin.ext e.symm)
  simp [State.readReg, State.writeReg, Vector.getElem_set_ne, hne]

/-- Everything a register write can do to a register read. -/
theorem State.readReg_writeReg (i j : Fin 16) (v : Word) :
    (s.writeReg i v).readReg j = if j = i then v else s.readReg j := by
  split
  · next h => subst h; exact s.readReg_writeReg_same j v
  · next h => exact s.readReg_writeReg_other h v

@[simp] theorem State.readReg_writeAcc_same (v : Word) : (s.writeAcc v).readReg 15 = v :=
  s.readReg_writeReg_same 15 v

theorem State.readReg_writeAcc_other {j : Fin 16} (h : j ≠ 15) (v : Word) :
    (s.writeAcc v).readReg j = s.readReg j :=
  s.readReg_writeReg_other h v

theorem State.writeRegOperand_eq (f : RegField) (v : Word) :
    s.writeRegOperand f v = s.writeReg (regIndex f) v := rfl

@[simp] theorem State.readReg_writePc (v : Word) (i : Fin 16) : (s.writePc v).readReg i = s.readReg i := rfl
@[simp] theorem State.readReg_writeSp (v : Word) (i : Fin 16) : (s.writeSp v).readReg i = s.readReg i := rfl
@[simp] theorem State.readReg_writeMem (m : Memory) (i : Fin 16) : (s.writeMem m).readReg i = s.readReg i := rfl
@[simp] theorem State.readReg_advancePc (i : Fin 16) : s.advancePc.readReg i = s.readReg i := rfl
@[simp] theorem State.readReg_enterHalt (r : HaltRecord) (i : Fin 16) :
    (s.enterHalt r).readReg i = s.readReg i := rfl
@[simp] theorem State.readReg_haltMemoryFault (m : Mnemonic) (a : Word) (i : Fin 16) :
    (s.haltMemoryFault m a).readReg i = s.readReg i := rfl
@[simp] theorem State.readReg_haltUnknownOpcode (op : Opcode) (i : Fin 16) :
    (s.haltUnknownOpcode op).readReg i = s.readReg i := rfl
@[simp] theorem State.readReg_haltEndOfProgram (i : Fin 16) : s.haltEndOfProgram.readReg i = s.readReg i := rfl

theorem regIndex_val (f : RegField) : (regIndex f).val = min f.idx.toNat 14 := rfl

/-- A register field never names the accumulator (R7, R8). -/
theorem regIndex_ne_acc (f : RegField) : regIndex f ≠ 15 := by
  intro h
  have hv := congrArg Fin.val h
  simp only [regIndex_val] at hv
  have : (15 : Fin 16).val = 15 := rfl
  omega

@[simp] theorem State.regOperand_writeAcc (f : RegField) (v : Word) :
    (s.writeAcc v).regOperand f = s.regOperand f :=
  s.readReg_writeAcc_other (regIndex_ne_acc f) v

@[simp] theorem State.regOperand_writeRegOperand_same (f : RegField) (v : Word) :
    (s.writeRegOperand f v).regOperand f = v := s.readReg_writeReg_same _ v

@[simp] theorem State.regOperand_advancePc (f : RegField) : s.advancePc.regOperand f = s.regOperand f := rfl

/-- The canonical field names the same register (R7, R42). -/
@[simp] theorem regIndex_canonicalField (f : RegField) : regIndex (canonicalField f) = regIndex f := by
  apply Fin.ext
  have h := regIndex_val f
  simp only [regIndex_val, canonicalField, BitVec.toNat_ofNat]
  omega

@[simp] theorem State.regOperand_canonicalField (f : RegField) :
    s.regOperand (canonicalField f) = s.regOperand f := by
  simp [State.regOperand]

@[simp] theorem canonicalField_reservedZero (f : RegField) : (canonicalField f).reservedZero = true := rfl

/-- A value added to a 32-bit register, as an integer (R13, R15). -/
theorem addOffset_toNat (base f : Word) :
    ((addOffset base f).toNat : Int) = ((base.toNat : Int) + f.toInt) % 2 ^ 32 := by
  simp only [addOffset, offset, BitVec.toNat_ofInt]
  have : (0 : Int) ≤ ((base.toNat : Int) + f.toInt) % ((2 ^ 32 : Nat) : Int) := Int.emod_nonneg _ (by decide)
  rw [Int.toNat_of_nonneg this]; rfl

end Sys2Proof.Machine
end

