-- ==== Sys2Proof/Laws/PerInstr.lean ====
section
/-! SUPPORT. Statements about every instruction as syntax, one lemma per constructor. -/

namespace Sys2Proof.Laws

open Sys2Proof Sys2Proof.Machine

/-- The instruction that R7 and R42 say acts the same has zero reserved bytes and unused fields, so it is
well formed under every RESERVED_POLICY (I1, I2). -/
def CanonicalIsWellFormed.Statement (i : Instr) : Prop :=
  ∀ c : Config, (canonicalInstr i).wellFormed c = true ∧ (canonicalInstr i).mnemonic = i.mnemonic

theorem canonical_of_reservedZero {i : Instr} (h : (canonicalInstr i).reservedZero = true)
    (hm : (canonicalInstr i).mnemonic = i.mnemonic) : CanonicalIsWellFormed.Statement i := by
  intro c
  refine ⟨?_, hm⟩
  simp only [Instr.wellFormed]
  split
  · rfl
  · exact h

/-- An instruction is what its mnemonic and its two operand fields make: no part of it is lost (R43). -/
def FieldsRebuild.Statement (i : Instr) : Prop := instrOf i.mnemonic i.operandA i.operandB = i

theorem CanonicalIsWellFormed.ld (addr : Word) (dst : RegField) : CanonicalIsWellFormed.Statement (.ld addr dst) :=
  canonical_of_reservedZero (by simp [canonicalInstr, Instr.reservedZero]) rfl

theorem CanonicalIsWellFormed.lc (imm : Word) (dst : RegField) : CanonicalIsWellFormed.Statement (.lc imm dst) :=
  canonical_of_reservedZero (by simp [canonicalInstr, Instr.reservedZero]) rfl

theorem CanonicalIsWellFormed.dr (src : RegField) (addr : Word) : CanonicalIsWellFormed.Statement (.dr src addr) :=
  canonical_of_reservedZero (by simp [canonicalInstr, Instr.reservedZero]) rfl

theorem CanonicalIsWellFormed.cpy (src : RegField) (dst : RegField) : CanonicalIsWellFormed.Statement (.cpy src dst) :=
  canonical_of_reservedZero (by simp [canonicalInstr, Instr.reservedZero]) rfl

theorem CanonicalIsWellFormed.or (ra : RegField) (rb : RegField) : CanonicalIsWellFormed.Statement (.or ra rb) :=
  canonical_of_reservedZero (by simp [canonicalInstr, Instr.reservedZero]) rfl

theorem CanonicalIsWellFormed.and (ra : RegField) (rb : RegField) : CanonicalIsWellFormed.Statement (.and ra rb) :=
  canonical_of_reservedZero (by simp [canonicalInstr, Instr.reservedZero]) rfl

theorem CanonicalIsWellFormed.xor (ra : RegField) (rb : RegField) : CanonicalIsWellFormed.Statement (.xor ra rb) :=
  canonical_of_reservedZero (by simp [canonicalInstr, Instr.reservedZero]) rfl

theorem CanonicalIsWellFormed.nand (ra : RegField) (rb : RegField) : CanonicalIsWellFormed.Statement (.nand ra rb) :=
  canonical_of_reservedZero (by simp [canonicalInstr, Instr.reservedZero]) rfl

theorem CanonicalIsWellFormed.nor (ra : RegField) (rb : RegField) : CanonicalIsWellFormed.Statement (.nor ra rb) :=
  canonical_of_reservedZero (by simp [canonicalInstr, Instr.reservedZero]) rfl

theorem CanonicalIsWellFormed.not (ra : RegField) (unusedB : Word) : CanonicalIsWellFormed.Statement (.not ra unusedB) :=
  canonical_of_reservedZero (by simp [canonicalInstr, Instr.reservedZero]) rfl

theorem CanonicalIsWellFormed.add (ra : RegField) (rb : RegField) : CanonicalIsWellFormed.Statement (.add ra rb) :=
  canonical_of_reservedZero (by simp [canonicalInstr, Instr.reservedZero]) rfl

theorem CanonicalIsWellFormed.sub (ra : RegField) (rb : RegField) : CanonicalIsWellFormed.Statement (.sub ra rb) :=
  canonical_of_reservedZero (by simp [canonicalInstr, Instr.reservedZero]) rfl

theorem CanonicalIsWellFormed.mul (ra : RegField) (rb : RegField) : CanonicalIsWellFormed.Statement (.mul ra rb) :=
  canonical_of_reservedZero (by simp [canonicalInstr, Instr.reservedZero]) rfl

theorem CanonicalIsWellFormed.div (ra : RegField) (rb : RegField) : CanonicalIsWellFormed.Statement (.div ra rb) :=
  canonical_of_reservedZero (by simp [canonicalInstr, Instr.reservedZero]) rfl

theorem CanonicalIsWellFormed.exp (ra : RegField) (rb : RegField) : CanonicalIsWellFormed.Statement (.exp ra rb) :=
  canonical_of_reservedZero (by simp [canonicalInstr, Instr.reservedZero]) rfl

theorem CanonicalIsWellFormed.jmp (target : Word) (unusedB : Word) : CanonicalIsWellFormed.Statement (.jmp target unusedB) :=
  canonical_of_reservedZero (by simp [canonicalInstr, Instr.reservedZero]) rfl

theorem CanonicalIsWellFormed.jmr (off : Word) (unusedB : Word) : CanonicalIsWellFormed.Statement (.jmr off unusedB) :=
  canonical_of_reservedZero (by simp [canonicalInstr, Instr.reservedZero]) rfl

theorem CanonicalIsWellFormed.cmp (cond : RegField) (target : Word) : CanonicalIsWellFormed.Statement (.cmp cond target) :=
  canonical_of_reservedZero (by simp [canonicalInstr, Instr.reservedZero]) rfl

theorem CanonicalIsWellFormed.cmr (cond : RegField) (off : Word) : CanonicalIsWellFormed.Statement (.cmr cond off) :=
  canonical_of_reservedZero (by simp [canonicalInstr, Instr.reservedZero]) rfl

theorem CanonicalIsWellFormed.psh (src : RegField) (unusedB : Word) : CanonicalIsWellFormed.Statement (.psh src unusedB) :=
  canonical_of_reservedZero (by simp [canonicalInstr, Instr.reservedZero]) rfl

theorem CanonicalIsWellFormed.pop (dst : RegField) (unusedB : Word) : CanonicalIsWellFormed.Statement (.pop dst unusedB) :=
  canonical_of_reservedZero (by simp [canonicalInstr, Instr.reservedZero]) rfl

theorem CanonicalIsWellFormed.movsp (off : Word) (unusedB : Word) : CanonicalIsWellFormed.Statement (.movsp off unusedB) :=
  canonical_of_reservedZero (by simp [canonicalInstr, Instr.reservedZero]) rfl

theorem CanonicalIsWellFormed.call (target : Word) (unusedB : Word) : CanonicalIsWellFormed.Statement (.call target unusedB) :=
  canonical_of_reservedZero (by simp [canonicalInstr, Instr.reservedZero]) rfl

theorem CanonicalIsWellFormed.ret (unusedA : Word) (unusedB : Word) : CanonicalIsWellFormed.Statement (.ret unusedA unusedB) :=
  canonical_of_reservedZero (by simp [canonicalInstr, Instr.reservedZero]) rfl

theorem CanonicalIsWellFormed.gt (ra : RegField) (rb : RegField) : CanonicalIsWellFormed.Statement (.gt ra rb) :=
  canonical_of_reservedZero (by simp [canonicalInstr, Instr.reservedZero]) rfl

theorem CanonicalIsWellFormed.lt (ra : RegField) (rb : RegField) : CanonicalIsWellFormed.Statement (.lt ra rb) :=
  canonical_of_reservedZero (by simp [canonicalInstr, Instr.reservedZero]) rfl

theorem CanonicalIsWellFormed.eq (ra : RegField) (rb : RegField) : CanonicalIsWellFormed.Statement (.eq ra rb) :=
  canonical_of_reservedZero (by simp [canonicalInstr, Instr.reservedZero]) rfl

theorem CanonicalIsWellFormed.ne (ra : RegField) (rb : RegField) : CanonicalIsWellFormed.Statement (.ne ra rb) :=
  canonical_of_reservedZero (by simp [canonicalInstr, Instr.reservedZero]) rfl

theorem CanonicalIsWellFormed.ge (ra : RegField) (rb : RegField) : CanonicalIsWellFormed.Statement (.ge ra rb) :=
  canonical_of_reservedZero (by simp [canonicalInstr, Instr.reservedZero]) rfl

theorem CanonicalIsWellFormed.le (ra : RegField) (rb : RegField) : CanonicalIsWellFormed.Statement (.le ra rb) :=
  canonical_of_reservedZero (by simp [canonicalInstr, Instr.reservedZero]) rfl

theorem CanonicalIsWellFormed.ldi (addr : RegField) (dst : RegField) : CanonicalIsWellFormed.Statement (.ldi addr dst) :=
  canonical_of_reservedZero (by simp [canonicalInstr, Instr.reservedZero]) rfl

theorem CanonicalIsWellFormed.sti (src : RegField) (addr : RegField) : CanonicalIsWellFormed.Statement (.sti src addr) :=
  canonical_of_reservedZero (by simp [canonicalInstr, Instr.reservedZero]) rfl

theorem FieldsRebuild.ld (addr : Word) (dst : RegField) : FieldsRebuild.Statement (.ld addr dst) := by
  simp [FieldsRebuild.Statement, instrOf, Instr.mnemonic, Instr.operandA, Instr.operandB]

theorem FieldsRebuild.lc (imm : Word) (dst : RegField) : FieldsRebuild.Statement (.lc imm dst) := by
  simp [FieldsRebuild.Statement, instrOf, Instr.mnemonic, Instr.operandA, Instr.operandB]

theorem FieldsRebuild.dr (src : RegField) (addr : Word) : FieldsRebuild.Statement (.dr src addr) := by
  simp [FieldsRebuild.Statement, instrOf, Instr.mnemonic, Instr.operandA, Instr.operandB]

theorem FieldsRebuild.cpy (src : RegField) (dst : RegField) : FieldsRebuild.Statement (.cpy src dst) := by
  simp [FieldsRebuild.Statement, instrOf, Instr.mnemonic, Instr.operandA, Instr.operandB]

theorem FieldsRebuild.or (ra : RegField) (rb : RegField) : FieldsRebuild.Statement (.or ra rb) := by
  simp [FieldsRebuild.Statement, instrOf, Instr.mnemonic, Instr.operandA, Instr.operandB]

theorem FieldsRebuild.and (ra : RegField) (rb : RegField) : FieldsRebuild.Statement (.and ra rb) := by
  simp [FieldsRebuild.Statement, instrOf, Instr.mnemonic, Instr.operandA, Instr.operandB]

theorem FieldsRebuild.xor (ra : RegField) (rb : RegField) : FieldsRebuild.Statement (.xor ra rb) := by
  simp [FieldsRebuild.Statement, instrOf, Instr.mnemonic, Instr.operandA, Instr.operandB]

theorem FieldsRebuild.nand (ra : RegField) (rb : RegField) : FieldsRebuild.Statement (.nand ra rb) := by
  simp [FieldsRebuild.Statement, instrOf, Instr.mnemonic, Instr.operandA, Instr.operandB]

theorem FieldsRebuild.nor (ra : RegField) (rb : RegField) : FieldsRebuild.Statement (.nor ra rb) := by
  simp [FieldsRebuild.Statement, instrOf, Instr.mnemonic, Instr.operandA, Instr.operandB]

theorem FieldsRebuild.not (ra : RegField) (unusedB : Word) : FieldsRebuild.Statement (.not ra unusedB) := by
  simp [FieldsRebuild.Statement, instrOf, Instr.mnemonic, Instr.operandA, Instr.operandB]

theorem FieldsRebuild.add (ra : RegField) (rb : RegField) : FieldsRebuild.Statement (.add ra rb) := by
  simp [FieldsRebuild.Statement, instrOf, Instr.mnemonic, Instr.operandA, Instr.operandB]

theorem FieldsRebuild.sub (ra : RegField) (rb : RegField) : FieldsRebuild.Statement (.sub ra rb) := by
  simp [FieldsRebuild.Statement, instrOf, Instr.mnemonic, Instr.operandA, Instr.operandB]

theorem FieldsRebuild.mul (ra : RegField) (rb : RegField) : FieldsRebuild.Statement (.mul ra rb) := by
  simp [FieldsRebuild.Statement, instrOf, Instr.mnemonic, Instr.operandA, Instr.operandB]

theorem FieldsRebuild.div (ra : RegField) (rb : RegField) : FieldsRebuild.Statement (.div ra rb) := by
  simp [FieldsRebuild.Statement, instrOf, Instr.mnemonic, Instr.operandA, Instr.operandB]

theorem FieldsRebuild.exp (ra : RegField) (rb : RegField) : FieldsRebuild.Statement (.exp ra rb) := by
  simp [FieldsRebuild.Statement, instrOf, Instr.mnemonic, Instr.operandA, Instr.operandB]

theorem FieldsRebuild.jmp (target : Word) (unusedB : Word) : FieldsRebuild.Statement (.jmp target unusedB) := by
  simp [FieldsRebuild.Statement, instrOf, Instr.mnemonic, Instr.operandA, Instr.operandB]

theorem FieldsRebuild.jmr (off : Word) (unusedB : Word) : FieldsRebuild.Statement (.jmr off unusedB) := by
  simp [FieldsRebuild.Statement, instrOf, Instr.mnemonic, Instr.operandA, Instr.operandB]

theorem FieldsRebuild.cmp (cond : RegField) (target : Word) : FieldsRebuild.Statement (.cmp cond target) := by
  simp [FieldsRebuild.Statement, instrOf, Instr.mnemonic, Instr.operandA, Instr.operandB]

theorem FieldsRebuild.cmr (cond : RegField) (off : Word) : FieldsRebuild.Statement (.cmr cond off) := by
  simp [FieldsRebuild.Statement, instrOf, Instr.mnemonic, Instr.operandA, Instr.operandB]

theorem FieldsRebuild.psh (src : RegField) (unusedB : Word) : FieldsRebuild.Statement (.psh src unusedB) := by
  simp [FieldsRebuild.Statement, instrOf, Instr.mnemonic, Instr.operandA, Instr.operandB]

theorem FieldsRebuild.pop (dst : RegField) (unusedB : Word) : FieldsRebuild.Statement (.pop dst unusedB) := by
  simp [FieldsRebuild.Statement, instrOf, Instr.mnemonic, Instr.operandA, Instr.operandB]

theorem FieldsRebuild.movsp (off : Word) (unusedB : Word) : FieldsRebuild.Statement (.movsp off unusedB) := by
  simp [FieldsRebuild.Statement, instrOf, Instr.mnemonic, Instr.operandA, Instr.operandB]

theorem FieldsRebuild.call (target : Word) (unusedB : Word) : FieldsRebuild.Statement (.call target unusedB) := by
  simp [FieldsRebuild.Statement, instrOf, Instr.mnemonic, Instr.operandA, Instr.operandB]

theorem FieldsRebuild.ret (unusedA : Word) (unusedB : Word) : FieldsRebuild.Statement (.ret unusedA unusedB) := by
  simp [FieldsRebuild.Statement, instrOf, Instr.mnemonic, Instr.operandA, Instr.operandB]

theorem FieldsRebuild.gt (ra : RegField) (rb : RegField) : FieldsRebuild.Statement (.gt ra rb) := by
  simp [FieldsRebuild.Statement, instrOf, Instr.mnemonic, Instr.operandA, Instr.operandB]

theorem FieldsRebuild.lt (ra : RegField) (rb : RegField) : FieldsRebuild.Statement (.lt ra rb) := by
  simp [FieldsRebuild.Statement, instrOf, Instr.mnemonic, Instr.operandA, Instr.operandB]

theorem FieldsRebuild.eq (ra : RegField) (rb : RegField) : FieldsRebuild.Statement (.eq ra rb) := by
  simp [FieldsRebuild.Statement, instrOf, Instr.mnemonic, Instr.operandA, Instr.operandB]

theorem FieldsRebuild.ne (ra : RegField) (rb : RegField) : FieldsRebuild.Statement (.ne ra rb) := by
  simp [FieldsRebuild.Statement, instrOf, Instr.mnemonic, Instr.operandA, Instr.operandB]

theorem FieldsRebuild.ge (ra : RegField) (rb : RegField) : FieldsRebuild.Statement (.ge ra rb) := by
  simp [FieldsRebuild.Statement, instrOf, Instr.mnemonic, Instr.operandA, Instr.operandB]

theorem FieldsRebuild.le (ra : RegField) (rb : RegField) : FieldsRebuild.Statement (.le ra rb) := by
  simp [FieldsRebuild.Statement, instrOf, Instr.mnemonic, Instr.operandA, Instr.operandB]

theorem FieldsRebuild.ldi (addr : RegField) (dst : RegField) : FieldsRebuild.Statement (.ldi addr dst) := by
  simp [FieldsRebuild.Statement, instrOf, Instr.mnemonic, Instr.operandA, Instr.operandB]

theorem FieldsRebuild.sti (src : RegField) (addr : RegField) : FieldsRebuild.Statement (.sti src addr) := by
  simp [FieldsRebuild.Statement, instrOf, Instr.mnemonic, Instr.operandA, Instr.operandB]

end Sys2Proof.Laws
end

