-- ==== Sys2Proof/Laws/Step.lean ====
section
/-! SUPPORT. Once, everything a step can answer (30_encoding.md R48 to R54). -/

namespace Sys2Proof.Machine

open Sys2Proof Host

/-- A step of a Halted dispatcher is nothing; a step of a Running one is EndOfProgram, an instruction,
UnknownOpcode, or (under RESERVED_POLICY `refuse` only) a refusal. -/
theorem step_cases (s : State) :
    (s.run = .halted ∧ step s = .next s) ∨
    (s.run = .running ∧ ¬ s.fetchFits ∧ step s = .next s.haltEndOfProgram) ∨
    (∃ i, s.run = .running ∧ s.fetchFits ∧ decode s.cfg s.fetchWord = .ok i ∧
      step s = exec i s.advancePc) ∨
    (∃ op, s.run = .running ∧ s.fetchFits ∧ decode s.cfg s.fetchWord = .error (.unknownOpcode op) ∧
      step s = .next (s.advancePc.haltUnknownOpcode op)) ∨
    (∃ m, s.run = .running ∧ s.fetchFits ∧ decode s.cfg s.fetchWord = .error (.reservedBits m) ∧
      step s = .refused (.reservedBits m)) := by
  simp only [step]
  cases hr : s.run with
  | halted => exact .inl ⟨rfl, rfl⟩
  | running =>
    by_cases hf : s.fetchFits
    · cases hd : decode s.cfg s.fetchWord with
      | ok i => exact .inr (.inr (.inl ⟨i, rfl, hf, rfl, by simp only [if_pos hf]⟩))
      | error e =>
        cases e with
        | unknownOpcode op => exact .inr (.inr (.inr (.inl ⟨op, rfl, hf, rfl, by simp only [if_pos hf]⟩)))
        | reservedBits m => exact .inr (.inr (.inr (.inr ⟨m, rfl, hf, rfl, by simp only [if_pos hf]⟩)))
    · exact .inr (.inl ⟨rfl, hf, by simp only [if_neg hf]⟩)

end Sys2Proof.Machine
end

