-- ==== Sys2Proof/Tests/Slice0.lean ====
section
/-! SUPPORT. The model's own tests. Every expected value is the spec's: an example of a rule R<n>, a vector
V-… or scenario S-… of 95_test_vectors.md, or a constraint of 00_scope.md R2. The witnesses at the end show,
for each statement with hypotheses, a state and operands that meet them, each clause at a boundary. -/

namespace Sys2Proof.Tests

open Sys2Proof Sys2Proof.Machine Host

/-! ### Helpers -/

/-- A part of the next state, none if there is none. -/
def after {α : Type} (f : State → α) : Outcome State Fault Refusal → Option α
  | .next t => some (f t)
  | .fault _ => none
  | .refused _ => none

/-- The next state, `reset` if there is none. -/
def nextState : Outcome State Fault Refusal → State
  | .next t => t
  | .fault _ => State.reset
  | .refused _ => State.reset

/-- The reset state with some registers set. -/
def start (rs : List (Fin 16 × Word)) : State := rs.foldl (fun s p => s.writeReg p.1 p.2) State.reset

/-- One step over the instruction word `w` placed at `pc`. -/
def run1 (s : State) (w : Nat) : Outcome State Fault Refusal := step (s.withFetchWord 80 w)

/-- A state with a word in memory. -/
def withWord (s : State) (a : Nat) (v : Word) : State := s.writeMem (s.mem.writeWord a v)

/-- The reset state of an instance with `n` bytes of memory. -/
def small (n : Nat) : State := State.resetWith { Config.default with memSize := BitVec.ofNat 32 n }

/-- The default parameters with RESERVED_POLICY `refuse`. -/
def strict : Config := { Config.default with reservedPolicy := .refuse }

/-! ### Well-formedness: one ill-formed term for each check -/

theorem test_default_wellFormed : Config.default.wellFormed = true := by decide
theorem test_wf_refuses_twoEqualOpcodes :
    ({ Config.default with opcodes := { Config.default.opcodes with add := 0x0001 } } : Config).wellFormed = false := by
  decide
theorem test_wf_refuses_otherLc :
    ({ Config.default with opcodes := { Config.default.opcodes with lc := 0x0030 } } : Config).wellFormed = false := by
  decide
theorem test_wf_refuses_zeroOpcode :
    ({ Config.default with opcodes := { Config.default.opcodes with add := 0x0000 } } : Config).wellFormed = false := by
  decide
theorem test_wf_refuses_largeMemory : Config.ofMemSize 0x100000000 = none := by decide
theorem test_wf_accepts_largestMemory :
    (Config.ofMemSize 0xFFFFFFFF).map Config.memSize = some 0xFFFFFFFF := by decide
theorem test_wf_refuses_reservedByte : (Instr.lc 5 ⟨1, 0⟩).wellFormed strict = false := by decide
theorem test_wf_refuses_unusedField : (Instr.jmp 5 1).wellFormed strict = false := by decide
theorem test_wf_accepts_reservedByte : (Instr.lc 5 ⟨1, 0⟩).wellFormed Config.default = true := by decide

/-! ### Decoding: the example word of each instruction's rule -/

/-- R55: `00 01 00 00 01 00 00 00 00 03`. -/
theorem test_decode_ld : decode Config.default 0x00010000010000000003 = .ok (.ld 0x100 ⟨0, 3⟩) := by decide
/-- R56, scenario A: `00 02 00 00 00 05 00 00 00 00`. -/
theorem test_decode_lc : decode Config.default 0x00020000000500000000 = .ok (.lc 5 ⟨0, 0⟩) := by decide
/-- R57: `00 03 00 00 00 02 00 00 02 00`. -/
theorem test_decode_dr : decode Config.default 0x00030000000200000200 = .ok (.dr ⟨0, 2⟩ 0x200) := by decide
/-- R58: `00 04 00 00 00 01 00 00 00 04`. -/
theorem test_decode_cpy : decode Config.default 0x00040000000100000004 = .ok (.cpy ⟨0, 1⟩ ⟨0, 4⟩) := by decide
/-- R60: `00 05 00 00 00 01 00 00 00 02`. -/
theorem test_decode_or : decode Config.default 0x00050000000100000002 = .ok (.or ⟨0, 1⟩ ⟨0, 2⟩) := by decide
/-- R61: `00 06 00 00 00 01 00 00 00 02`. -/
theorem test_decode_and : decode Config.default 0x00060000000100000002 = .ok (.and ⟨0, 1⟩ ⟨0, 2⟩) := by decide
/-- R62: `00 07 00 00 00 01 00 00 00 02`. -/
theorem test_decode_xor : decode Config.default 0x00070000000100000002 = .ok (.xor ⟨0, 1⟩ ⟨0, 2⟩) := by decide
/-- R63: `00 08 00 00 00 01 00 00 00 02`. -/
theorem test_decode_nand : decode Config.default 0x00080000000100000002 = .ok (.nand ⟨0, 1⟩ ⟨0, 2⟩) := by decide
/-- R64: `00 09 00 00 00 01 00 00 00 02`. -/
theorem test_decode_nor : decode Config.default 0x00090000000100000002 = .ok (.nor ⟨0, 1⟩ ⟨0, 2⟩) := by decide
/-- R65: `00 0A 00 00 00 03 00 00 00 00`. -/
theorem test_decode_not : decode Config.default 0x000A0000000300000000 = .ok (.not ⟨0, 3⟩ 0) := by decide
/-- R67: `00 0B 00 00 00 00 00 00 00 01`. -/
theorem test_decode_add : decode Config.default 0x000B0000000000000001 = .ok (.add ⟨0, 0⟩ ⟨0, 1⟩) := by decide
/-- R68: `00 0C 00 00 00 00 00 00 00 01`. -/
theorem test_decode_sub : decode Config.default 0x000C0000000000000001 = .ok (.sub ⟨0, 0⟩ ⟨0, 1⟩) := by decide
/-- R69: `00 0D 00 00 00 02 00 00 00 03`. -/
theorem test_decode_mul : decode Config.default 0x000D0000000200000003 = .ok (.mul ⟨0, 2⟩ ⟨0, 3⟩) := by decide
/-- R70: `00 0E 00 00 00 00 00 00 00 01`. -/
theorem test_decode_div : decode Config.default 0x000E0000000000000001 = .ok (.div ⟨0, 0⟩ ⟨0, 1⟩) := by decide
/-- R71: `00 0F 00 00 00 00 00 00 00 01`. -/
theorem test_decode_exp : decode Config.default 0x000F0000000000000001 = .ok (.exp ⟨0, 0⟩ ⟨0, 1⟩) := by decide
/-- R73: `00 10 00 00 00 28 00 00 00 00`. -/
theorem test_decode_jmp : decode Config.default 0x00100000002800000000 = .ok (.jmp 40 0) := by decide
/-- R74: `00 11 FF FF FF EC 00 00 00 00`. -/
theorem test_decode_jmr : decode Config.default 0x0011FFFFFFEC00000000 = .ok (.jmr 0xFFFFFFEC 0) := by decide
/-- R75: `00 12 00 00 00 02 00 00 00 64`. -/
theorem test_decode_cmp : decode Config.default 0x00120000000200000064 = .ok (.cmp ⟨0, 2⟩ 0x64) := by decide
/-- R76: `00 13 00 00 00 00 FF FF FF E2`. -/
theorem test_decode_cmr : decode Config.default 0x001300000000FFFFFFE2 = .ok (.cmr ⟨0, 0⟩ 0xFFFFFFE2) := by decide
/-- R78: `00 14 00 00 00 00 00 00 00 00`. -/
theorem test_decode_psh : decode Config.default 0x00140000000000000000 = .ok (.psh ⟨0, 0⟩ 0) := by decide
/-- R79: `00 15 00 00 00 05 00 00 00 00`. -/
theorem test_decode_pop : decode Config.default 0x00150000000500000000 = .ok (.pop ⟨0, 5⟩ 0) := by decide
/-- R80: `00 16 FF FF FF F0 00 00 00 00`. -/
theorem test_decode_movsp : decode Config.default 0x0016FFFFFFF000000000 = .ok (.movsp 0xFFFFFFF0 0) := by decide
/-- R81: `00 17 00 00 00 64 00 00 00 00`. -/
theorem test_decode_call : decode Config.default 0x00170000006400000000 = .ok (.call 0x64 0) := by decide
/-- R82: `00 18 00 00 00 00 00 00 00 00`. -/
theorem test_decode_ret : decode Config.default 0x00180000000000000000 = .ok (.ret 0 0) := by decide
/-- R85: `00 19 00 00 00 00 00 00 00 01`. -/
theorem test_decode_gt : decode Config.default 0x00190000000000000001 = .ok (.gt ⟨0, 0⟩ ⟨0, 1⟩) := by decide
/-- R86: `00 1A 00 00 00 00 00 00 00 01`. -/
theorem test_decode_lt : decode Config.default 0x001A0000000000000001 = .ok (.lt ⟨0, 0⟩ ⟨0, 1⟩) := by decide
/-- R87: `00 1B 00 00 00 00 00 00 00 01`. -/
theorem test_decode_eq : decode Config.default 0x001B0000000000000001 = .ok (.eq ⟨0, 0⟩ ⟨0, 1⟩) := by decide
/-- R88: `00 1C 00 00 00 00 00 00 00 01`. -/
theorem test_decode_ne : decode Config.default 0x001C0000000000000001 = .ok (.ne ⟨0, 0⟩ ⟨0, 1⟩) := by decide
/-- R89: `00 1D 00 00 00 00 00 00 00 01`. -/
theorem test_decode_ge : decode Config.default 0x001D0000000000000001 = .ok (.ge ⟨0, 0⟩ ⟨0, 1⟩) := by decide
/-- R90: `00 1E 00 00 00 00 00 00 00 01`. -/
theorem test_decode_le : decode Config.default 0x001E0000000000000001 = .ok (.le ⟨0, 0⟩ ⟨0, 1⟩) := by decide
/-- R91: `00 1F 00 00 00 01 00 00 00 02`. -/
theorem test_decode_ldi : decode Config.default 0x001F0000000100000002 = .ok (.ldi ⟨0, 1⟩ ⟨0, 2⟩) := by decide
/-- R92: `00 20 00 00 00 03 00 00 00 04`. -/
theorem test_decode_sti : decode Config.default 0x00200000000300000004 = .ok (.sti ⟨0, 3⟩ ⟨0, 4⟩) := by decide

theorem test_decode_zeroOpcode : decode Config.default 0 = .error (.unknownOpcode 0x0000) := by decide
/-- V-UO1. -/
theorem test_decode_unassigned :
    decode Config.default 0x00210000000000000000 = .error (.unknownOpcode 0x0021) := by decide
theorem test_decodeBytes_short : decodeBytes Config.default [0x00, 0x02] = .error (.wrongLength 2) := by decide
theorem test_decode_strict_refuses :
    decode strict 0x00020000000500000100 = .error (.reservedBits .lc) := by decide
theorem test_tableWord : decodeTableWord 80 0x00140000000700000000 = some (.psh ⟨0, 7⟩ 0) := by decide
theorem test_encodeBytes :
    encodeBytes Config.default (.lc 5 ⟨0, 0⟩) =
      [0x00, 0x02, 0x00, 0x00, 0x00, 0x05, 0x00, 0x00, 0x00, 0x00] := by decide

/-! ### Instructions: vectors of 95_test_vectors.md -/

/-- V-DM2. -/
theorem test_ld_unaligned :
    after (·.readReg 0) (run1 (withWord State.reset 0x101 0xAABBCCDD) 0x00010000010100000000) = some 0xAABBCCDD := by decide
/-- V-DM3. -/
theorem test_lc_allOnes :
    after (·.readReg 7) (run1 State.reset 0x0002FFFFFFFF00000007) = some 0xFFFFFFFF := by decide
/-- V-CL2. -/
theorem test_lc_index255 :
    after (·.readReg 14) (run1 State.reset 0x000200000005000000FF) = some 5 := by decide
/-- V-DM4. -/
theorem test_dr_bytes :
    after (·.mem.readBytes 0x1FF 6) (run1 (start [(2, 0xDEADBEEF)]) 0x00030000000200000200) =
      some [0, 0xDE, 0xAD, 0xBE, 0xEF, 0] := by decide
/-- V-DM5. -/
theorem test_cpy :
    after (·.readReg 4) (run1 (start [(1, 7)]) 0x00040000000100000004) = some 7 := by decide
/-- V-CL3. -/
theorem test_cpy_clamped :
    after (·.readReg 0) (run1 (start [(14, 3), (15, 99)]) 0x00040000000F00000000) = some 3 := by decide
/-- V-BW1. -/
theorem test_or :
    after (·.readReg 15) (run1 (start [(1, 0x0F0F0000), (2, 0x00FF00FF)]) 0x00050000000100000002) = some 0x0FFF00FF := by decide
/-- V-BW2. -/
theorem test_and :
    after (·.readReg 15) (run1 (start [(1, 0xF0F0F0F0), (2, 0xFF00FF00)]) 0x00060000000100000002) = some 0xF000F000 := by decide
/-- V-BW3. -/
theorem test_xor :
    after (·.readReg 15) (run1 (start [(1, 0xFFFF0000), (2, 0x0F0F0F0F)]) 0x00070000000100000002) = some 0xF0F00F0F := by decide
/-- V-BW4. -/
theorem test_nand :
    after (·.readReg 15) (run1 (start [(1, 0xFFFFFFFF), (2, 0x0000FFFF)]) 0x00080000000100000002) = some 0xFFFF0000 := by decide
/-- V-BW6. -/
theorem test_nor :
    after (·.readReg 15) (run1 (start [(1, 0), (2, 1)]) 0x00090000000100000002) = some 0xFFFFFFFE := by decide
/-- V-CL7. -/
theorem test_not_unusedField :
    after (·.readReg 15) (run1 (start [(1, 0x12345678)]) 0x000A00000001FFFFFFFF) = some 0xEDCBA987 := by decide
/-- V-AR1. -/
theorem test_add_wraps :
    after (·.readReg 15) (run1 (start [(0, 0xFFFFFFFF), (1, 1)]) 0x000B0000000000000001) = some 0 := by decide
/-- V-CL5. -/
theorem test_add_clamped :
    after (·.readReg 15) (run1 (start [(14, 6), (0, 2)]) 0x000B0000000F00000000) = some 8 := by decide
/-- V-AR5. -/
theorem test_sub_wraps :
    after (·.readReg 15) (run1 (start [(0, 3), (1, 7)]) 0x000C0000000000000001) = some 0xFFFFFFFC := by decide
/-- V-AR9. -/
theorem test_mul_low :
    after (·.readReg 15) (run1 (start [(2, 0x12345678), (3, 0x9ABCDEF0)]) 0x000D0000000200000003) = some 0x242D2080 := by decide
/-- V-AR10. -/
theorem test_div_byZero :
    after (·.readReg 15) (run1 (start [(0, 7), (1, 0)]) 0x000E0000000000000001) = some 7 := by decide
/-- V-AR13. -/
theorem test_div_floor :
    after (·.readReg 15) (run1 (start [(0, 0xFFFFFFFF), (1, 7)]) 0x000E0000000000000001) = some 0x24924924 := by decide
/-- V-AR20. -/
theorem test_exp_largeExponent :
    after (·.readReg 15) (run1 (start [(0, 3), (1, 0xFFFFFFFF)]) 0x000F0000000000000001) = some 0xAAAAAAAB := by decide
/-- V-AR16. -/
theorem test_exp_zeroZero :
    after (·.readReg 15) (run1 (start [(0, 0), (1, 0)]) 0x000F0000000000000001) = some 1 := by decide
/-- V-CF1. -/
theorem test_jmp :
    after (·.pc) (run1 ((start []).writePc 10) 0x00100000002800000000) = some 40 := by decide
/-- V-CF2. -/
theorem test_jmr_back :
    after (·.pc) (run1 ((start []).writePc 20) 0x0011FFFFFFEC00000000) = some 10 := by decide
/-- V-CF5. -/
theorem test_jmr_wraps :
    after (·.pc) (run1 ((start []).writePc 0) 0x0011FFFFFFEC00000000) = some 0xFFFFFFF6 := by decide
/-- V-CF6. -/
theorem test_cmp_taken :
    after (·.pc) (run1 ((start [(2, 1)]).writePc 0) 0x00120000000200000064) = some 0x64 := by decide
/-- V-CF10. -/
theorem test_cmp_notAccumulator :
    after (·.pc) (run1 ((start [(15, 0xFFFFFFFF)]).writePc 0) 0x00120000000F00000064) = some 10 := by decide
/-- V-CF8. -/
theorem test_cmr_taken :
    after (·.pc) (run1 ((start [(0, 5)]).writePc 30) 0x001300000000FFFFFFE2) = some 10 := by decide
/-- V-CF9. -/
theorem test_cmr_notTaken :
    after (·.pc) (run1 ((start []).writePc 30) 0x001300000000FFFFFFE2) = some 40 := by decide
/-- V-ST1. -/
theorem test_psh :
    after (fun t => (t.sp, t.mem.readBytes 0xFFFFC 4)) (run1 (start [(0, 42)]) 0x00140000000000000000) =
      some (0xFFFFC, [0, 0, 0, 0x2A]) := by decide
/-- V-ST2. -/
theorem test_pop :
    after (fun t => (t.readReg 5, t.sp)) (run1 ((withWord State.reset 0xFFFFC 42).writeSp 0xFFFFC)
      0x00150000000500000000) = some (42, 0x100000) := by decide
/-- V-ST4. -/
theorem test_movsp :
    after (·.sp) (run1 State.reset 0x0016FFFFFFF000000000) = some 0xFFFF0 := by decide
/-- V-ST7. -/
theorem test_movsp_wraps :
    after (·.sp) (run1 (State.reset.writeSp 2) 0x0016FFFFFFFA00000000) = some 0xFFFFFFFC := by decide
/-- V-CR1. -/
theorem test_call :
    after (fun t => (t.pc, t.sp, t.mem.readBytes 0xFFFFC 4)) (run1 (State.reset.writePc 0x14)
      0x00170000006400000000) = some (0x64, 0xFFFFC, [0, 0, 0, 0x1E]) := by decide
/-- V-CR2. -/
theorem test_ret :
    after (fun t => (t.pc, t.sp)) (run1 ((withWord State.reset 0xFFFFC 0x100).writeSp 0xFFFFC)
      0x00180000000000000000) = some (0x100, 0x100000) := by decide
/-- V-CM4. -/
theorem test_gt_unsigned :
    after (·.readReg 15) (run1 (start [(0, 0x80000000), (1, 0x7FFFFFFF)]) 0x00190000000000000001) = some 0xFFFFFFFF := by decide
/-- V-CM3. -/
theorem test_gt_equal :
    after (·.readReg 15) (run1 (start [(0, 5), (1, 5)]) 0x00190000000000000001) = some 0 := by decide
/-- V-CM4. -/
theorem test_lt_unsigned :
    after (·.readReg 15) (run1 (start [(0, 0x80000000), (1, 0x7FFFFFFF)]) 0x001A0000000000000001) = some 0 := by decide
/-- V-CM3. -/
theorem test_lt_equal :
    after (·.readReg 15) (run1 (start [(0, 5), (1, 5)]) 0x001A0000000000000001) = some 0 := by decide
/-- V-CM4. -/
theorem test_eq_unsigned :
    after (·.readReg 15) (run1 (start [(0, 0x80000000), (1, 0x7FFFFFFF)]) 0x001B0000000000000001) = some 0 := by decide
/-- V-CM3. -/
theorem test_eq_equal :
    after (·.readReg 15) (run1 (start [(0, 5), (1, 5)]) 0x001B0000000000000001) = some 0xFFFFFFFF := by decide
/-- V-CM4. -/
theorem test_ne_unsigned :
    after (·.readReg 15) (run1 (start [(0, 0x80000000), (1, 0x7FFFFFFF)]) 0x001C0000000000000001) = some 0xFFFFFFFF := by decide
/-- V-CM3. -/
theorem test_ne_equal :
    after (·.readReg 15) (run1 (start [(0, 5), (1, 5)]) 0x001C0000000000000001) = some 0 := by decide
/-- V-CM4. -/
theorem test_ge_unsigned :
    after (·.readReg 15) (run1 (start [(0, 0x80000000), (1, 0x7FFFFFFF)]) 0x001D0000000000000001) = some 0xFFFFFFFF := by decide
/-- V-CM3. -/
theorem test_ge_equal :
    after (·.readReg 15) (run1 (start [(0, 5), (1, 5)]) 0x001D0000000000000001) = some 0xFFFFFFFF := by decide
/-- V-CM4. -/
theorem test_le_unsigned :
    after (·.readReg 15) (run1 (start [(0, 0x80000000), (1, 0x7FFFFFFF)]) 0x001E0000000000000001) = some 0 := by decide
/-- V-CM3. -/
theorem test_le_equal :
    after (·.readReg 15) (run1 (start [(0, 5), (1, 5)]) 0x001E0000000000000001) = some 0xFFFFFFFF := by decide
/-- V-IM2. -/
theorem test_ldi_self :
    after (·.readReg 1) (run1 (withWord (start [(1, 0x100)]) 0x100 0x108) 0x001F0000000100000001) = some 0x108 := by decide
/-- V-IM3. -/
theorem test_sti :
    after (·.mem.readBytes 0x200 4) (run1 (start [(3, 0xCAFEF00D), (4, 0x200)]) 0x00200000000300000004) =
      some [0xCA, 0xFE, 0xF0, 0x0D] := by decide
/-- V-MF1. -/
theorem test_ld_faults :
    after (fun t => (t.run, t.halt)) (run1 State.reset 0x0001000FFFFD00000000) =
      some (.halted, ⟨.memoryFault, 0x0001, 0, 0xFFFFD⟩) := by decide
/-- V-MF3. -/
theorem test_dr_faults :
    after (fun t => (t.run, t.halt)) (run1 (start [(2, 7)]) 0x000300000002000FFFFF) =
      some (.halted, ⟨.memoryFault, 0x0003, 0, 0xFFFFF⟩) := by decide
/-- V-MF4. -/
theorem test_ldi_faults :
    after (fun t => (t.run, t.halt)) (run1 (start [(1, 0xFFFFE)]) 0x001F0000000100000002) =
      some (.halted, ⟨.memoryFault, 0x001F, 0, 0xFFFFE⟩) := by decide
/-- V-MF5. -/
theorem test_sti_faults :
    after (fun t => (t.run, t.halt)) (run1 (start [(4, 0xFFFFF)]) 0x00200000000300000004) =
      some (.halted, ⟨.memoryFault, 0x0020, 0, 0xFFFFF⟩) := by decide
/-- V-MF10. -/
theorem test_psh_faults_wrapped :
    after (fun t => (t.run, t.halt)) (run1 (State.reset.writeSp 0) 0x00140000000000000000) =
      some (.halted, ⟨.memoryFault, 0x0014, 0, 0xFFFFFFFC⟩) := by decide
/-- V-MF7. -/
theorem test_pop_faults :
    after (fun t => (t.run, t.halt)) (run1 (State.reset.writeSp 0xFFFFD) 0x00150000000000000000) =
      some (.halted, ⟨.memoryFault, 0x0015, 0, 0xFFFFD⟩) := by decide
/-- V-MF8. -/
theorem test_call_faults :
    after (fun t => (t.run, t.halt)) (run1 (State.reset.writeSp 0x100003) 0x00170000006400000000) =
      some (.halted, ⟨.memoryFault, 0x0017, 0, 0xFFFFF⟩) := by decide
/-- V-UO3. -/
theorem test_unknownOpcode :
    after (fun t => (t.run, t.halt)) (run1 State.reset 0xFFFF0000000500000000) =
      some (.halted, ⟨.unknownOpcode, 0xFFFF, 0, 0⟩) := by decide
/-- V-MF9 (`pc` after the fault: decision D8). -/
theorem test_ret_faults_empty :
    after (fun t => (t.halt, t.pc, t.sp)) (run1 State.reset 0x00180000000000000000) =
      some (⟨.memoryFault, 0x0018, 0, 0x100000⟩, 10, 0x100000) := by decide
/-- V-EP1. -/
theorem test_endOfProgram :
    after (fun t => (t.run, t.halt, t.pc)) (step (small 9)) =
      some (.halted, ⟨.endOfProgram, 0, 0, 0⟩, 0) := by decide
/-- V-EP3. -/
theorem test_endOfProgram_wrapped :
    after (·.halt) (step (State.reset.writePc 0xFFFFFFF6)) =
      some ⟨.endOfProgram, 0, 0xFFFFFFF6, 0⟩ := by decide
/-- R38. -/
theorem test_overlap :
    ((Memory.writeWord [] 0x100 0x11223344).writeWord 0x102 0xAABBCCDD).readWord 0x100 = 0x1122AABB := by decide
/-- R20 and assumption 9. -/
theorem test_write_zero_removes :
    Memory.write (Memory.write [] 5 7) 5 0 = [] := by decide
/-- R29. -/
theorem test_readSignedWord :
    (withWord State.reset 0x10 0xFFFFFFFE).readSignedWord 0x10 = some (-2) ∧
      State.reset.readSignedWord 0xFFFFD = none := by decide
/-- D16, I13. -/
theorem test_load_late :
    (match portLoad 0 [1] ⟨State.reset, true⟩ with | .refused r => some r | _ => none) =
      some .loadAfterFirstStep := by decide
/-- R113. -/
theorem test_readMem :
    portReadMem ⟨State.reset, false⟩ 0xFFFFF 1 = .ok [0] ∧
      portReadMem ⟨State.reset, false⟩ 0xFFFFF 2 = .error (.readOutOfRange 0xFFFFF 2) := by decide
/-- S-A with MEM_SIZE = 10. -/
theorem test_boot_scenarioA :
    (match portBoot [0, 2, 0, 0, 0, 5, 0, 0, 0, 0] ⟨small 10, true⟩ with
      | .next x => (match portRun 2 x with
        | .next y => some (portReadReg y 0, portReadPc y, portStatus y)
        | _ => none)
      | _ => none) = some (5, 10, ⟨.halted, 1, 0, 10, 0⟩) := by decide

/-! ### Witnesses: for each statement with hypotheses, states and operands that meet them -/

/-- A state about to run the instruction word `w` at the last address that can be fetched. -/
def atEnd (w : Nat) : State := (State.reset.writePc 0xFFFF6).withFetchWord 80 w

theorem witness_DecodeOfEncodeIsIdentity :
    (Config.default.wellFormed = true ∧ (Instr.lc 5 ⟨1, 0⟩).wellFormed Config.default = true) ∧
    (strict.wellFormed = true ∧ (Instr.lc 5 ⟨0, 255⟩).wellFormed strict = true) := by decide

theorem witness_EncodeOfDecodeIsIdentity :
    decode Config.default 0x0018FFFFFFFFFFFFFFFF = .ok (.ret 0xFFFFFFFF 0xFFFFFFFF) := by decide

theorem witness_OpcodeAloneSelects :
    Config.default.opcodes.injective = true ∧ Config.default.reservedPolicy = .ignore := by decide

theorem witness_RefusePolicyRefusesReservedBits :
    let s := ((State.resetWith strict).writePc 0xFFFF6).withFetchWord 80 0x00020000000500000100
    let z := (State.resetWith strict).withFetchWord 80 0x00020000000500000000
    (s.run = .running ∧ s.fetchFits ∧ s.cfg.reservedPolicy = .refuse ∧
      s.cfg.opcodes.lookup (opcodeOf s.fetchWord) = some .lc ∧
      (instrOf .lc (fieldA s.fetchWord) (fieldB s.fetchWord)).reservedZero = false) ∧
    (z.run = .running ∧ z.fetchFits ∧ z.cfg.reservedPolicy = .refuse ∧
      z.cfg.opcodes.lookup (opcodeOf z.fetchWord) = some .lc ∧
      (instrOf .lc (fieldA z.fetchWord) (fieldB z.fetchWord)).reservedZero = true) := by decide

theorem witness_ClampRule :
    14 ≤ (RegField.idx ⟨0, 14⟩).toNat ∧ 14 ≤ (RegField.idx ⟨0, 15⟩).toNat ∧
    14 ≤ (RegField.idx ⟨7, 255⟩).toNat := by decide

/-- LD, DR: the highest legal address and the lowest illegal one. -/
theorem witness_LdLoadsWord_DrStoresWord :
    (0xFFFFC : Word).toNat + 4 ≤ State.reset.cfg.memSize.toNat ∧
    State.reset.cfg.memSize.toNat < (0xFFFFD : Word).toNat + 4 := by decide

theorem witness_LcLoadsConstant : State.reset.cfg.wellFormed = true := by decide

theorem witness_DivFloorsAndZeroDivisorIsOne :
    (start [(0, 7)]).regOperand ⟨0, 1⟩ = 0 ∧ (start [(0, 7), (1, 1)]).regOperand ⟨0, 1⟩ ≠ 0 := by decide

/-- The three ways into EXP's clauses: `0^0`, a base that is not 0, and the default EXP_ZERO_ZERO. -/
theorem witness_ExpIsModularPower :
    (State.reset.regOperand ⟨0, 0⟩ = 0 ∧ State.reset.regOperand ⟨0, 1⟩ = 0) ∧
    ¬ ((start [(0, 1)]).regOperand ⟨0, 0⟩ = 0 ∧ (start [(0, 1)]).regOperand ⟨0, 1⟩ = 0) ∧
    State.reset.cfg.expZeroZero = 1 := by decide

theorem witness_CmrBranchesIfNonZero :
    State.reset.regOperand ⟨0, 0⟩ = 0 ∧ (start [(0, 1)]).regOperand ⟨0, 0⟩ ≠ 0 := by decide

/-- PSH, CALL: the empty stack and `sp = 4` push, `sp = MEM_SIZE + 1` and `sp = 3` fault. -/
theorem witness_PshStoresBelowSp_CallPushesPcAndJumps :
    (State.reset.sp - 4).toNat + 4 ≤ State.reset.cfg.memSize.toNat ∧
    ((State.reset.writeSp 4).sp - 4).toNat + 4 ≤ State.reset.cfg.memSize.toNat ∧
    State.reset.cfg.memSize.toNat < ((State.reset.writeSp 0x100001).sp - 4).toNat + 4 ∧
    State.reset.cfg.memSize.toNat < ((State.reset.writeSp 3).sp - 4).toNat + 4 := by decide

/-- POP, RET: `sp = MEM_SIZE - 4` pops, `sp = MEM_SIZE - 3` faults. -/
theorem witness_PopLoadsAtSp_RetPopsPc :
    (State.reset.writeSp 0xFFFFC).sp.toNat + 4 ≤ State.reset.cfg.memSize.toNat ∧
    State.reset.cfg.memSize.toNat < (State.reset.writeSp 0xFFFFD).sp.toNat + 4 := by decide

theorem witness_PopAfterPshRestoresSp :
    ((start [(3, 0x89ABCDEF)]).sp - 4).toNat + 4 ≤ (start [(3, 0x89ABCDEF)]).cfg.memSize.toNat := by decide

/-- A CALL that pushes, and a callee state that has moved on (another `pc`, another register) with the `sp`
and the slot the CALL left. -/
theorem witness_RetAfterCallReturns :
    (State.reset.sp - 4).toNat + 4 ≤ State.reset.cfg.memSize.toNat ∧
    ∃ t q : State, exec (.call 0x64 0) State.reset = .next t ∧ q.sp = t.sp ∧ q.cfg = t.cfg ∧ q.pc ≠ t.pc ∧
      ∀ a : Nat, t.sp.toNat ≤ a → a < t.sp.toNat + 4 → q.mem.read a = t.mem.read a :=
  ⟨by decide, nextState (exec (.call 0x64 0) State.reset),
    ((nextState (exec (.call 0x64 0) State.reset)).writePc 0x6E).writeReg 1 5, rfl, rfl, rfl, by decide,
    fun _ _ _ => rfl⟩

/-- LDI, STI: the highest legal address and the lowest illegal one, in a register. -/
theorem witness_LdiLoadsIndirect_StiStoresIndirect :
    ((start [(1, 0xFFFFC)]).regOperand ⟨0, 1⟩).toNat + 4 ≤ (start [(1, 0xFFFFC)]).cfg.memSize.toNat ∧
    (start [(1, 0xFFFFD)]).cfg.memSize.toNat < ((start [(1, 0xFFFFD)]).regOperand ⟨0, 1⟩).toNat + 4 := by
  decide

/-- The four storing clauses at the highest legal address, where the stored word is the last four bytes of the
next fetch: DR and STI by the address in r4, PSH and CALL by the empty stack. -/
theorem witness_NextFetchSeesStore :
    let s := (atEnd 0).writeReg 4 0xFFFFC
    (0xFFFFC : Word).toNat + 4 ≤ s.cfg.memSize.toNat ∧
    (s.regOperand ⟨0, 4⟩).toNat + 4 ≤ s.cfg.memSize.toNat ∧
    (s.sp - 4).toNat + 4 ≤ s.cfg.memSize.toNat ∧
    (s.sp - 4).toNat = s.pc.toNat + 6 ∧ (s.regOperand ⟨0, 4⟩).toNat = s.pc.toNat + 6 := by decide

/-- `pc` at the last address that can be fetched, with a word there that decodes. -/
theorem witness_StepRunsDecodedInstruction :
    (atEnd 0x00020000000500000000).run = .running ∧
    (atEnd 0x00020000000500000000).pc.toNat + 10 ≤ (atEnd 0x00020000000500000000).cfg.memSize.toNat ∧
    decode (atEnd 0x00020000000500000000).cfg (atEnd 0x00020000000500000000).fetchWord = .ok (.lc 5 ⟨0, 0⟩) := by
  decide

/-- A word at the highest legal address that reads as a positive and as a negative number, and the lowest
illegal address. -/
theorem witness_SignedReadIsTwosComplement :
    (0xFFFFC : Word).toNat + 4 ≤ State.reset.cfg.memSize.toNat ∧
    ((withWord State.reset 0xFFFFC 0x7FFFFFFF).mem.readWord (0xFFFFC : Word).toNat).toNat < 2 ^ 31 ∧
    2 ^ 31 ≤ ((withWord State.reset 0xFFFFC 0x80000000).mem.readWord (0xFFFFC : Word).toNat).toNat ∧
    State.reset.cfg.memSize.toNat < (0xFFFFD : Word).toNat + 4 := by decide

/-- The last bytes of memory, and one byte more. -/
theorem witness_ReadMemAnswersBytesInRange :
    0xFFFFE + 2 ≤ State.reset.cfg.memSize.toNat ∧ State.reset.cfg.memSize.toNat < 0xFFFFE + 3 := by decide

/-- The three clauses of LoadBlockAllOrNothing: after a step; a block one byte too long; a block that just
fits. -/
theorem witness_LoadBlockAllOrNothing :
    (Session.mk (small 12) true).stepped = true ∧
    ((Session.mk (small 12) false).stepped = false ∧
      (small 12).cfg.memSize.toNat < (10 : Word).toNat + [1, 2, 3].length) ∧
    ((Session.mk (small 12) false).stepped = false ∧
      (10 : Word).toNat + [1, 2].length ≤ (small 12).cfg.memSize.toNat) := by decide

theorem witness_BootInstallsProgram :
    (small 2).cfg.memSize.toNat < ([1, 2, 3] : List Byte).length ∧
    ([1, 2] : List Byte).length ≤ (small 2).cfg.memSize.toNat := by decide

theorem witness_EndOfProgramHalts :
    (State.reset.writePc 0xFFFF7).run = .running ∧
    (State.reset.writePc 0xFFFF7).cfg.memSize.toNat < (State.reset.writePc 0xFFFF7).pc.toNat + 10 := by decide

theorem witness_UnknownOpcodeHalts :
    (atEnd 0x00210000000000000000).run = .running ∧
    (atEnd 0x00210000000000000000).pc.toNat + 10 ≤ (atEnd 0x00210000000000000000).cfg.memSize.toNat ∧
    ∀ m, (atEnd 0x00210000000000000000).cfg.opcodes.get m ≠ opcodeOf (atEnd 0x00210000000000000000).fetchWord :=
  ⟨by decide, by decide, fun m => by cases m <;> decide⟩

theorem witness_MemoryFaultExactlyOutOfBounds :
    State.reset.run = .running ∧ dataAddress (.ret 0 0) State.reset = some 0x100000 ∧
    State.reset.cfg.memSize.toNat < (0x100000 : Word).toNat + 4 := by decide

theorem witness_HaltedHasNoStep : (small 9).haltEndOfProgram.run = .halted := by decide

/-- One state for each of the four outcomes of a running step: EndOfProgram, UnknownOpcode, MemoryFault and
an instruction that completes. -/
theorem witness_OnlyThreeHaltingConditions :
    (∃ t, (small 9).run = .running ∧ step (small 9) = .next t ∧ t.run = .halted) ∧
    (∃ t, State.reset.run = .running ∧ step State.reset = .next t ∧ t.run = .halted) ∧
    (∃ t, (atEnd 0x00180000000000000000).run = .running ∧
      step (atEnd 0x00180000000000000000) = .next t ∧ t.run = .halted) ∧
    (∃ t, (atEnd 0x00020000000500000000).run = .running ∧
      step (atEnd 0x00020000000500000000) = .next t ∧ t.run = .running) :=
  ⟨⟨nextState (step (small 9)), by decide, rfl, by decide⟩,
    ⟨nextState (step State.reset), by decide, rfl, by decide⟩,
    ⟨nextState (step (atEnd 0x00180000000000000000)), by decide, rfl, by decide⟩,
    ⟨nextState (step (atEnd 0x00020000000500000000)), by decide, rfl, by decide⟩⟩

/-- The three steps that halt. -/
theorem witness_HaltChangesNoRegisterMemoryOrSp :
    (∃ t, (small 9).run = .running ∧ step (small 9) = .next t ∧ t.run = .halted) ∧
    (∃ t, State.reset.run = .running ∧ step State.reset = .next t ∧ t.run = .halted) ∧
    (∃ t, (atEnd 0x00180000000000000000).run = .running ∧
      step (atEnd 0x00180000000000000000) = .next t ∧ t.run = .halted) :=
  ⟨witness_OnlyThreeHaltingConditions.1, witness_OnlyThreeHaltingConditions.2.1,
    witness_OnlyThreeHaltingConditions.2.2.1⟩

theorem witness_StepAlwaysAnswersNext : State.reset.cfg.reservedPolicy = .ignore := by decide

/-- A Running session whose step halts, and a Halted one. -/
theorem witness_HaltKeepsReadouts :
    (∃ y, portStep ⟨small 9, false⟩ = .next y ∧ y.core.run = .halted) ∧
    (∃ y, portStep ⟨(small 9).haltEndOfProgram, true⟩ = .next y ∧ y.core.run = .halted) :=
  ⟨⟨⟨nextState (step (small 9)), true⟩, rfl, by decide⟩, ⟨_, rfl, by decide⟩⟩

theorem witness_OnlyListedRegisterIsWritten :
    (∃ t, exec (.pop ⟨0, 5⟩ 0) ((withWord State.reset 0xFFFFC 42).writeSp 0xFFFFC) = .next t ∧
      t.readReg 5 = 42) ∧ writtenReg (.pop ⟨0, 5⟩ 0) ≠ some 4 :=
  ⟨⟨nextState (exec (.pop ⟨0, 5⟩ 0) ((withWord State.reset 0xFFFFC 42).writeSp 0xFFFFC)), rfl, by decide⟩,
    by decide⟩

/-- Before `ADD r0, r1`, with a value in the accumulator. -/
def accBefore (v : Word) : State := (start [(0, 7), (1, 3), (15, v)]).withFetchWord 80 0x000B0000000000000001

/-- Two states that differ in the accumulator, before a step that writes it (ADD) and before one that does not
(the EndOfProgram of a memory too small to fetch from); and an instruction that changes it. -/
theorem witness_AccumulatorIsHidden :
    (AgreeButAcc (accBefore 1) (accBefore 2) ∧ (accBefore 1).readReg 15 ≠ (accBefore 2).readReg 15 ∧
      StepWritesAcc (accBefore 1)) ∧
    (AgreeButAcc ((small 9).writeAcc 1) ((small 9).writeAcc 2) ∧ ¬ StepWritesAcc ((small 9).writeAcc 1)) ∧
    (∃ t, exec (.add ⟨0, 0⟩ ⟨0, 1⟩) (start [(0, 7), (1, 3)]) = .next t ∧
      t.readReg 15 ≠ (start [(0, 7), (1, 3)]).readReg 15) :=
  ⟨⟨⟨by decide, rfl, rfl, rfl, rfl, rfl, rfl⟩, by decide, by decide, by decide, .add ⟨0, 0⟩ ⟨0, 1⟩, by decide,
      by decide⟩,
    ⟨⟨by decide, rfl, rfl, rfl, rfl, rfl, rfl⟩, fun h => absurd h.2.1 (by decide)⟩,
    ⟨nextState (exec (.add ⟨0, 0⟩ ⟨0, 1⟩) (start [(0, 7), (1, 3)])), rfl, by decide⟩⟩

/-- The invariant holds of a state that stores at the top of memory, and the step answers a next state. -/
theorem witness_StepKeepsInvariant :
    Inv ((start [(0, 42)]).withFetchWord 80 0x00140000000000000000) ∧
    ∃ t, run1 (start [(0, 42)]) 0x00140000000000000000 = .next t :=
  ⟨by decide, nextState (run1 (start [(0, 42)]) 0x00140000000000000000), rfl⟩

theorem witness_ParametersNeverChange :
    (∃ t, step State.reset = .next t) ∧ (∃ y, portRun 2 ⟨small 9, false⟩ = .next y) ∧
    (∃ y, portLoad 10 [1, 2] ⟨small 12, false⟩ = .next y) :=
  ⟨⟨nextState (step State.reset), rfl⟩, ⟨⟨nextState (step (small 9)), true⟩, rfl⟩,
    ⟨⟨(small 12).writeMem ((small 12).mem.writeBytes 10 [1, 2]), false⟩, rfl⟩⟩

theorem witness_HaltPseudoInstructionEndsRun : State.reset.run = .running := by decide

theorem witness_JmrMinusTenLoopsForever :
    (atEnd 0x0011FFFFFFF600000000).run = .running ∧
    (atEnd 0x0011FFFFFFF600000000).pc.toNat + 10 ≤ (atEnd 0x0011FFFFFFF600000000).cfg.memSize.toNat ∧
    decode (atEnd 0x0011FFFFFFF600000000).cfg (atEnd 0x0011FFFFFFF600000000).fetchWord =
      .ok (.jmr 0xFFFFFFF6 0) := by decide

end Sys2Proof.Tests
end

/-! ## The parameters are never written (00_scope.md R1, R2)

The parameters stand in `State.cfg`. What the shared operations, an instruction, a step and the host's ports can
answer, and that none of it touches that field. -/

namespace Sys2Proof.Machine

open Sys2Proof Host

/-! ### The host's ports: everything `step`, `run` and `load` can answer -/

section Ports

variable {x y : Session}

/-- The port `step` does nothing when Halted, and otherwise makes one step and notes that it did (R113). -/
theorem portStep_cases (h : portStep x = .next y) :
    (x.core.run = .halted ∧ y = x) ∨
    (x.core.run = .running ∧ ∃ t, step x.core = .next t ∧ y = ⟨t, true⟩) := by
  simp only [portStep] at h
  split at h
  · next hr => exact .inl ⟨hr, (Outcome.next.inj h).symm⟩
  · next hr =>
    split at h
    · next t ht => exact .inr ⟨hr, t, ht, (Outcome.next.inj h).symm⟩
    · cases h
    · cases h

/-- The port `run` stops when Halted, and otherwise issues one step and runs on from there (R54, R113). -/
theorem portRun_succ_cases {fuel : Nat} (h : portRun (fuel + 1) x = .next y) :
    (x.core.run = .halted ∧ y = x) ∨
    (x.core.run = .running ∧ ∃ z, portStep x = .next z ∧ portRun fuel z = .next y) := by
  simp only [portRun] at h
  split at h
  · next hr => exact .inl ⟨hr, (Outcome.next.inj h).symm⟩
  · next hr =>
    split at h
    · next z hz => exact .inr ⟨hr, z, hz, h⟩
    · cases h
    · cases h

/-- The port `load` succeeds only before the first step and with a block that fits, and then writes the block
and nothing else (R30, R113). -/
theorem portLoad_cases {off : Word} {bs : List Byte} (h : portLoad off bs x = .next y) :
    x.stepped = false ∧ x.core.fits off bs.length ∧
    y = { x with core := x.core.writeMem (x.core.mem.writeBytes off.toNat bs) } := by
  simp only [portLoad] at h
  split at h
  · cases h
  · next hs =>
    split at h
    · next hf => exact ⟨Bool.eq_false_iff.mpr hs, hf, (Outcome.next.inj h).symm⟩
    · cases h

end Ports

/-! ### The shared operations keep the parameters when what the instruction adds to them does -/

section Operations

variable {s t u : State} {m : Mnemonic} {a v : Word}

theorem cfg_eq_of_next_eq (hu : u.cfg = s.cfg)
    (h : (.next u : Outcome State Fault Refusal) = .next t) : t.cfg = s.cfg :=
  Outcome.next.inj h ▸ hu

theorem State.load_cfg {k : Word → State} (hk : ∀ w, (k w).cfg = s.cfg) (h : s.load m a k = .next t) :
    t.cfg = s.cfg := by
  obtain ⟨-, rfl⟩ | ⟨-, rfl⟩ := State.load_cases h
  · exact hk _
  · exact s.haltMemoryFault_cfg m a

theorem State.store_cfg {k : State → State} (hk : ∀ r, (k r).cfg = r.cfg)
    (h : s.store m a v k = .next t) : t.cfg = s.cfg := by
  obtain ⟨-, rfl⟩ | ⟨-, rfl⟩ := State.store_cases h
  · exact hk _
  · exact s.haltMemoryFault_cfg m a

theorem State.push_cfg {k : State → State} (hk : ∀ r, (k r).cfg = r.cfg) (h : s.push m v k = .next t) :
    t.cfg = s.cfg :=
  State.store_cfg (fun r => hk (r.writeSp s.pushAddr)) h

theorem State.pop_cfg {k : Word → State → State} (hk : ∀ w r, (k w r).cfg = r.cfg)
    (h : s.pop m k = .next t) : t.cfg = s.cfg :=
  State.load_cfg (fun w => hk w (s.writeSp (s.sp + 4))) h

end Operations

/-! ### Instructions, steps and runs -/

/-- No instruction writes the parameters: a memory instruction is one shared operation with a register or `pc`
write added, every other one is a register, `pc` or `sp` write alone. -/
theorem exec_cfg {i : Instr} {s t : State} (h : exec i s = .next t) : t.cfg = s.cfg := by
  cases i with
  | ld addr dst => exact State.load_cfg (fun w => s.writeRegOperand_cfg dst w) h
  | ldi addr dst => exact State.load_cfg (fun w => s.writeRegOperand_cfg dst w) h
  | dr src addr => exact State.store_cfg (fun _ => rfl) h
  | sti src addr => exact State.store_cfg (fun _ => rfl) h
  | psh src unusedB => exact State.push_cfg (fun _ => rfl) h
  | call target unusedB => exact State.push_cfg (fun r => r.writePc_cfg target) h
  | pop dst unusedB => exact State.pop_cfg (fun w r => r.writeRegOperand_cfg dst w) h
  | ret unusedA unusedB => exact State.pop_cfg (fun w r => r.writePc_cfg w) h
  | lc imm dst => exact cfg_eq_of_next_eq (s.writeRegOperand_cfg dst _) h
  | cpy src dst => exact cfg_eq_of_next_eq (s.writeRegOperand_cfg dst _) h
  | or | and | xor | nand | nor | not | add | sub | mul | div | exp | gt | lt | eq | ne | ge | le =>
    exact cfg_eq_of_next_eq (s.writeAcc_cfg _) h
  | jmp | jmr => exact cfg_eq_of_next_eq (s.writePc_cfg _) h
  | movsp off unusedB => exact cfg_eq_of_next_eq (s.writeSp_cfg _) h
  | cmp | cmr =>
    refine cfg_eq_of_next_eq ?_ h
    split
    · exact s.writePc_cfg _
    · rfl

theorem step_cfg {s t : State} (h : step s = .next t) : t.cfg = s.cfg := by
  obtain ⟨-, hs⟩ | ⟨-, -, hs⟩ | ⟨i, -, -, -, hs⟩ | ⟨op, -, -, -, hs⟩ | ⟨m, -, -, -, hs⟩ := step_cases s <;>
    rw [hs] at h
  · exact cfg_eq_of_next_eq rfl h
  · exact cfg_eq_of_next_eq s.haltEndOfProgram_cfg h
  · exact (exec_cfg h).trans s.advancePc_cfg
  · exact cfg_eq_of_next_eq (s.advancePc.haltUnknownOpcode_cfg op) h
  · cases h

theorem portStep_cfg {x y : Session} (h : portStep x = .next y) : y.core.cfg = x.core.cfg := by
  obtain ⟨-, rfl⟩ | ⟨-, t, ht, rfl⟩ := portStep_cases h
  · rfl
  · exact step_cfg ht

theorem portRun_cfg {x y : Session} {fuel : Nat} (h : portRun fuel x = .next y) :
    y.core.cfg = x.core.cfg := by
  induction fuel generalizing x with
  | zero => exact Outcome.next.inj h ▸ rfl
  | succ fuel ih =>
    obtain ⟨-, rfl⟩ | ⟨-, z, hz, hy⟩ := portRun_succ_cases h
    · rfl
    · exact (ih hy).trans (portStep_cfg hz)

theorem portLoad_cfg {x y : Session} {off : Word} {bs : List Byte} (h : portLoad off bs x = .next y) :
    y.core.cfg = x.core.cfg := by
  obtain ⟨-, -, rfl⟩ := portLoad_cases h
  exact x.core.writeMem_cfg _

/-- Settles O57: by the cases of a step, by induction on the number of steps of a run, and because a load writes
memory only. -/
theorem parametersNeverChange : Obligations.ParametersNeverChange :=
  ⟨fun _ _ => step_cfg, fun _ _ _ => portRun_cfg, fun _ _ _ _ => portLoad_cfg⟩

end Sys2Proof.Machine

/-! ## The decoder's rejection and the step, case by case (30_encoding.md R45, R48 to R52) -/

namespace Sys2Proof

/-- The opcode of a mnemonic is assigned, whether or not the map is injective (R45). -/
theorem OpcodeMap.lookup_get_isSome (t : OpcodeMap) (m : Mnemonic) : (t.lookup (t.get m)).isSome = true := by
  rw [Option.isSome_iff_ne_none]
  exact fun hnone => (t.lookup_eq_none _).mp hnone m rfl

/-- The decoder answers `unknownOpcode` only with an opcode that no mnemonic has (R45, R51). -/
theorem lookup_eq_none_of_decode_unknownOpcode {c : Config} {w : InstrWord} {op : Opcode}
    (h : decode c w = .error (.unknownOpcode op)) : c.opcodes.lookup op = none := by
  obtain ⟨hl, hd⟩ | ⟨m, -, -, hd⟩ | ⟨m, -, -, hd⟩ := decode_cases c w
  · rw [hd] at h
    cases h
    exact hl
  · rw [hd] at h; cases h
  · rw [hd] at h; cases h

end Sys2Proof

namespace Sys2Proof.Machine

open Sys2Proof Host

variable {s : State}

theorem step_of_halted (hr : s.run = .halted) : step s = .next s := by
  simp only [step, hr]

theorem step_of_not_fetchFits (hr : s.run = .running) (hf : ¬ s.fetchFits) :
    step s = .next s.haltEndOfProgram := by
  simp only [step, hr, if_neg hf]

theorem step_of_decode_ok {i : Instr} (hr : s.run = .running) (hf : s.fetchFits)
    (hd : decode s.cfg s.fetchWord = .ok i) : step s = exec i s.advancePc := by
  simp only [step, hr, if_pos hf, hd]

theorem step_of_unknownOpcode {op : Opcode} (hr : s.run = .running) (hf : s.fetchFits)
    (hd : decode s.cfg s.fetchWord = .error (.unknownOpcode op)) :
    step s = .next (s.advancePc.haltUnknownOpcode op) := by
  simp only [step, hr, if_pos hf, hd]

theorem step_of_reservedBits {m : Mnemonic} (hr : s.run = .running) (hf : s.fetchFits)
    (hd : decode s.cfg s.fetchWord = .error (.reservedBits m)) :
    step s = .refused (.reservedBits m) := by
  simp only [step, hr, if_pos hf, hd]

end Sys2Proof.Machine

/-! ## What one instruction does (10_state.md R9, 30_encoding.md R53)

Every answer of `exec` is one of four effects. The register frame and the invariant are read off this list. -/

namespace Sys2Proof.Machine

open Sys2Proof Host

/-- The effects an instruction can have, each with the rows of R9's and R94's tables that go with it. -/
inductive ExecEffect (i : Instr) (s : State) : State → Prop
  /-- The listed register is written, and POP moves `sp` beside it. -/
  | writesReg {r : Fin 16} (v sp : Word) (hr : writtenReg i = some r) :
      ExecEffect i s ((s.writeSp sp).writeReg r v)
  /-- `pc` and `sp` move, nothing else: a branch, taken or not, MOVSP and RET. -/
  | moves (pc sp : Word) (hr : writtenReg i = none) : ExecEffect i s ((s.writeSp sp).writePc pc)
  /-- A word is stored at the address that was checked; PSH and CALL move `sp`, CALL moves `pc`. -/
  | stores {a : Word} (v pc sp : Word) (hr : writtenReg i = none) (ha : dataAddress i s = some a)
      (hf : s.wordFits a) :
      ExecEffect i s (((s.writeMem (s.mem.writeWord a.toNat v)).writeSp sp).writePc pc)
  /-- The check of the data address failed: MemoryFault (R94). -/
  | faults {a : Word} (ha : dataAddress i s = some a) (hf : ¬ s.wordFits a) :
      ExecEffect i s (s.haltMemoryFault i.mnemonic a)

section Effects

variable {i : Instr} {s t u : State} {a v : Word}

theorem ExecEffect.of_next_eq (h : (.next u : Outcome State Fault Refusal) = .next t)
    (hu : ExecEffect i s u) : ExecEffect i s t :=
  Outcome.next.inj h ▸ hu

theorem ExecEffect.of_load {k : Word → State} (h : s.load i.mnemonic a k = .next t)
    (ha : dataAddress i s = some a) (hk : ∀ w, ExecEffect i s (k w)) : ExecEffect i s t := by
  obtain ⟨-, rfl⟩ | ⟨hf, rfl⟩ := State.load_cases h
  · exact hk _
  · exact .faults ha hf

theorem ExecEffect.of_store {k : State → State} (h : s.store i.mnemonic a v k = .next t)
    (ha : dataAddress i s = some a)
    (hk : s.wordFits a → ExecEffect i s (k (s.writeMem (s.mem.writeWord a.toNat v)))) : ExecEffect i s t := by
  obtain ⟨hf, rfl⟩ | ⟨hf, rfl⟩ := State.store_cases h
  · exact hk hf
  · exact .faults ha hf

theorem ExecEffect.of_push {k : State → State} (h : s.push i.mnemonic v k = .next t)
    (ha : dataAddress i s = some s.pushAddr)
    (hk : s.wordFits s.pushAddr →
      ExecEffect i s (k ((s.writeMem (s.mem.writeWord s.pushAddr.toNat v)).writeSp s.pushAddr))) :
    ExecEffect i s t :=
  .of_store h ha hk

theorem ExecEffect.of_pop {k : Word → State → State} (h : s.pop i.mnemonic k = .next t)
    (ha : dataAddress i s = some s.sp) (hk : ∀ w, ExecEffect i s (k w (s.writeSp (s.sp + 4)))) :
    ExecEffect i s t :=
  .of_load h ha hk

/-- Everything an instruction can do. -/
theorem exec_effect (h : exec i s = .next t) : ExecEffect i s t := by
  cases i with
  | ld addr dst => exact .of_load h rfl fun w => .writesReg w s.sp rfl
  | ldi addr dst => exact .of_load h rfl fun w => .writesReg w s.sp rfl
  | pop dst unusedB =>
    simp only [exec, execPop] at h
    exact .of_pop h rfl fun w => .writesReg w (s.sp + 4) rfl
  | ret unusedA unusedB =>
    simp only [exec, execRet] at h
    exact .of_pop h rfl fun w => .moves w (s.sp + 4) rfl
  | dr src addr => exact .of_store h rfl (.stores _ s.pc s.sp rfl rfl)
  | sti src addr => exact .of_store h rfl (.stores _ s.pc s.sp rfl rfl)
  | psh src unusedB => exact .of_push h rfl (.stores _ s.pc s.pushAddr rfl rfl)
  | call target unusedB =>
    simp only [exec, execCall] at h
    exact .of_push h rfl (.stores _ target s.pushAddr rfl rfl)
  | lc | cpy => exact .of_next_eq h (.writesReg _ s.sp rfl)
  | or | and | xor | nand | nor | not | add | sub | mul | div | exp | gt | lt | eq | ne | ge | le =>
    exact .of_next_eq h (.writesReg _ s.sp rfl)
  | jmp | jmr => exact .of_next_eq h (.moves _ s.sp rfl)
  | movsp off unusedB => exact .of_next_eq h (.moves s.pc (addOffset s.sp off) rfl)
  | cmp | cmr =>
    refine .of_next_eq h ?_
    split
    · exact .moves _ s.sp rfl
    · exact .moves s.pc s.sp rfl

/-- Every instruction answers a next state. -/
theorem exec_answers_next (i : Instr) (s : State) : ∃ t, exec i s = .next t := by
  cases i with
  | ld addr | ldi addr | pop | ret =>
    simp only [exec, execLd, execLdi, execPop, execRet, State.pop, State.load]
    split <;> exact ⟨_, rfl⟩
  | dr | sti | psh | call =>
    simp only [exec, execDr, execSti, execPsh, execCall, State.push, State.store]
    split <;> exact ⟨_, rfl⟩
  | _ => exact ⟨_, rfl⟩

/-- The register frame of an instruction: R9's table. -/
theorem exec_readReg_of_not_written {j : Fin 16} (h : exec i s = .next t) (hj : writtenReg i ≠ some j) :
    t.readReg j = s.readReg j := by
  cases exec_effect h with
  | @writesReg r v sp hr =>
    have hne : j ≠ r := by
      rintro rfl
      exact hj hr
    exact (s.writeSp sp).readReg_writeReg_other hne v
  | moves => rfl
  | stores => rfl
  | faults => rfl

end Effects

/-- Settles O53, by the effects an instruction can have. -/
theorem onlyListedRegisterIsWritten : Obligations.OnlyListedRegisterIsWritten :=
  fun _ _ _ h _ hj => exec_readReg_of_not_written h hj

end Sys2Proof.Machine

/-! ## The invariant (10_state.md R19, R20; 20_memory.md R23; 60_exceptions.md R93 to R96) -/

namespace Sys2Proof.Machine

open Sys2Proof Host

variable {s t : State}

/-! ### The invariant of each state update -/

/-- The invariant speaks of the parameters, the memory, the dispatcher state and the halt record only. -/
theorem inv_writeReg_iff (r : Fin 16) (v : Word) : Inv (s.writeReg r v) ↔ Inv s := Iff.rfl

theorem inv_writePc_iff (v : Word) : Inv (s.writePc v) ↔ Inv s := Iff.rfl

theorem inv_writeSp_iff (v : Word) : Inv (s.writeSp v) ↔ Inv s := Iff.rfl

theorem inv_writeWord {a : Word} (v : Word) (hf : s.wordFits a) (hs : Inv s) :
    Inv (s.writeMem (s.mem.writeWord a.toNat v)) := by
  obtain ⟨hwf, hin, hok⟩ := hs
  exact ⟨s.mem.writeWord_wf _ v hwf, s.mem.writeWord_within _ _ v hf hin, hok⟩

theorem inv_haltEndOfProgram (hf : ¬ s.fetchFits) (hs : Inv s) : Inv s.haltEndOfProgram := by
  obtain ⟨hwf, hin, -⟩ := hs
  exact ⟨hwf, hin, by simpa [State.haltRecordOk] using hf⟩

theorem inv_haltUnknownOpcode {op : Opcode} (hop : s.cfg.opcodes.lookup op = none)
    (hf : s.fits s.instrAddr 10) (hs : Inv s) : Inv (s.haltUnknownOpcode op) := by
  obtain ⟨hwf, hin, -⟩ := hs
  exact ⟨hwf, hin, by simpa [State.haltRecordOk, hop] using hf⟩

theorem inv_haltMemoryFault (m : Mnemonic) {a : Word} (ha : ¬ s.wordFits a)
    (hf : s.fits s.instrAddr 10) (hs : Inv s) : Inv (s.haltMemoryFault m a) := by
  obtain ⟨hwf, hin, -⟩ := hs
  refine ⟨hwf, hin, ?_⟩
  simpa [State.haltRecordOk, OpcodeMap.lookup_get_isSome] using And.intro hf ha

/-! ### Instructions and steps -/

/-- An instruction that was fetched keeps the invariant: only a checked store writes memory, and a MemoryFault
records the fetched address, the opcode of the instruction and the address that failed the check. -/
theorem exec_inv {i : Instr} (h : exec i s = .next t) (hf : s.fits s.instrAddr 10) (hs : Inv s) : Inv t := by
  cases exec_effect h with
  | writesReg v sp hr => exact (inv_writeReg_iff _ v).mpr ((inv_writeSp_iff sp).mpr hs)
  | moves pc sp hr => exact (inv_writePc_iff pc).mpr ((inv_writeSp_iff sp).mpr hs)
  | stores v pc sp hr ha hfits =>
    exact (inv_writePc_iff pc).mpr ((inv_writeSp_iff sp).mpr (inv_writeWord v hfits hs))
  | faults ha hfits => exact inv_haltMemoryFault i.mnemonic hfits hf hs

/-- After the advance, the address of the instruction is the one whose fetch was checked (R50). -/
theorem fits_instrAddr_advancePc (hf : s.fetchFits) : s.advancePc.fits s.advancePc.instrAddr 10 := by
  rw [State.instrAddr_advancePc]
  exact hf

theorem step_inv (h : step s = .next t) (hs : Inv s) : Inv t := by
  have hadv : Inv s.advancePc := (inv_writePc_iff _).mpr hs
  obtain ⟨-, he⟩ | ⟨-, hf, he⟩ | ⟨i, -, hf, -, he⟩ | ⟨op, -, hf, hd, he⟩ | ⟨m, -, -, -, he⟩ :=
    step_cases s <;> rw [he] at h
  · exact Outcome.next.inj h ▸ hs
  · exact Outcome.next.inj h ▸ inv_haltEndOfProgram hf hs
  · exact exec_inv h (fits_instrAddr_advancePc hf) hadv
  · exact Outcome.next.inj h ▸ inv_haltUnknownOpcode (lookup_eq_none_of_decode_unknownOpcode hd)
      (fits_instrAddr_advancePc hf) hadv
  · cases h

/-- Settles O55, by the cases of a step. -/
theorem stepKeepsInvariant : Obligations.StepKeepsInvariant := fun _ _ hs h => step_inv h hs

end Sys2Proof.Machine

/-! ## The accumulator is hidden (10_state.md R8, R9)

Two states agree but for the accumulator exactly when one is the other with the accumulator written. So the
statement is about the order of a step and a write of the accumulator: an accumulator instruction overwrites
it, and every other step commutes with it. -/

namespace Sys2Proof.Machine

open Sys2Proof Host

variable {s s' t : State} {v : Word}

/-! ### Writing the accumulator, and the other state updates -/

theorem State.writeAcc_writeAcc (s : State) (v w : Word) : (s.writeAcc v).writeAcc w = s.writeAcc w := by
  simp [State.writeAcc, State.writeReg]

/-- No operand names the accumulator, so an operand write commutes with a write of it (R7, R8). -/
theorem State.writeRegOperand_writeAcc (s : State) (f : RegField) (v w : Word) :
    (s.writeAcc v).writeRegOperand f w = (s.writeRegOperand f w).writeAcc v := by
  have hne : (15 : Fin 16).val ≠ (regIndex f).val := fun e => regIndex_ne_acc f (Fin.ext e.symm)
  simp only [State.writeAcc, State.writeRegOperand, State.writeReg]
  rw [Vector.set_comm _ _ hne]

theorem AgreeButAcc.refl (s : State) : AgreeButAcc s s := ⟨fun _ _ => rfl, rfl, rfl, rfl, rfl, rfl, rfl⟩

theorem agreeButAcc_iff : AgreeButAcc s s' ↔ ∃ v, s' = s.writeAcc v := by
  constructor
  · rintro ⟨hregs, hcfg, hpc, hsp, hrun, hhalt, hmem⟩
    refine ⟨s'.readReg 15, ?_⟩
    have hset : s'.regs = s.regs.set 15 (s'.readReg 15) := by
      refine Vector.ext fun k hk => ?_
      by_cases h15 : k = 15
      · subst h15
        simp [State.readReg]
      · rw [Vector.getElem_set_ne _ _ (Ne.symm h15)]
        exact hregs ⟨k, hk⟩ fun e => h15 (congrArg Fin.val e)
    cases s
    cases s'
    simp only [State.writeAcc, State.writeReg, State.mk.injEq]
    exact ⟨hcfg, hset, hpc, hsp, hrun, hhalt, hmem⟩
  · rintro ⟨v, rfl⟩
    exact ⟨fun _ hi => s.readReg_writeAcc_other hi v, rfl, rfl, rfl, rfl, rfl, rfl⟩

/-! ### The shared operations commute with a write of the accumulator when the instruction's part does -/

section Operations

variable {m : Mnemonic} {a w : Word}

theorem State.load_writeAcc {k k' : Word → State} (h : s.load m a k = .next t)
    (hk : ∀ w, k' w = (k w).writeAcc v) : (s.writeAcc v).load m a k' = .next (t.writeAcc v) := by
  obtain ⟨hf, rfl⟩ | ⟨hf, rfl⟩ := State.load_cases h
  · exact hk _ ▸ State.load_fits hf
  · exact State.load_faults hf

theorem State.store_writeAcc {k : State → State} (h : s.store m a w k = .next t)
    (hk : ∀ r : State, k (r.writeAcc v) = (k r).writeAcc v) :
    (s.writeAcc v).store m a w k = .next (t.writeAcc v) := by
  obtain ⟨hf, rfl⟩ | ⟨hf, rfl⟩ := State.store_cases h
  · exact hk _ ▸ State.store_fits hf
  · exact State.store_faults hf

theorem State.push_writeAcc {k : State → State} (h : s.push m w k = .next t)
    (hk : ∀ r : State, k (r.writeAcc v) = (k r).writeAcc v) :
    (s.writeAcc v).push m w k = .next (t.writeAcc v) :=
  State.store_writeAcc h fun r => hk (r.writeSp s.pushAddr)

theorem State.pop_writeAcc {k : Word → State → State} (h : s.pop m k = .next t)
    (hk : ∀ (w : Word) (r : State), k w (r.writeAcc v) = (k w r).writeAcc v) :
    (s.writeAcc v).pop m k = .next (t.writeAcc v) :=
  State.load_writeAcc h fun w => hk w (s.writeSp (s.sp + 4))

end Operations

/-! ### Instructions -/

/-- The accumulator row of R9's table. -/
theorem mnemonic_mem_of_writtenReg_acc {i : Instr} (h : writtenReg i = some 15) :
    i.mnemonic ∈ [Mnemonic.or, .and, .xor, .nand, .nor, .not, .add, .sub, .mul, .div, .exp,
      .gt, .lt, .eq, .ne, .ge, .le] := by
  cases i with
  | or | and | xor | nand | nor | not | add | sub | mul | div | exp | gt | lt | eq | ne | ge | le =>
    simp [Instr.mnemonic]
  | ld _ dst | lc _ dst | cpy _ dst | pop dst | ldi _ dst =>
    exact absurd (Option.some.inj h) (regIndex_ne_acc dst)
  | dr | jmp | jmr | cmp | cmr | psh | movsp | call | ret | sti => cases h

/-- An accumulator instruction reads operand registers and parameters only, and overwrites the accumulator. -/
theorem exec_writeAcc_of_written {i : Instr} (s : State) (v : Word) (h : writtenReg i = some 15) :
    exec i (s.writeAcc v) = exec i s := by
  cases i with
  | or | and | xor | nand | nor | not =>
    simp only [exec, execOr, execAnd, execXor, execNand, execNor, execNot, State.regOperand_writeAcc,
      State.writeAcc_writeAcc]
  | add | sub | mul | div | exp =>
    simp only [exec, execAdd, execSub, execMul, execDiv, execExp, State.regOperand_writeAcc,
      State.writeAcc_cfg, State.writeAcc_writeAcc]
  | gt | lt | eq | ne | ge | le =>
    simp only [exec, execGt, execLt, execEq, execNe, execGe, execLe, State.regOperand_writeAcc,
      State.writeAcc_writeAcc]
  | ld _ dst | lc _ dst | cpy _ dst | pop dst | ldi _ dst =>
    exact absurd (Option.some.inj h) (regIndex_ne_acc dst)
  | dr | jmp | jmr | cmp | cmr | psh | movsp | call | ret | sti => cases h

/-- Every other instruction commutes with a write of the accumulator. -/
theorem exec_writeAcc_of_not_written {i : Instr} (hi : writtenReg i ≠ some 15) (h : exec i s = .next t) :
    exec i (s.writeAcc v) = .next (t.writeAcc v) := by
  cases i with
  | ld addr dst => exact State.load_writeAcc h fun w => s.writeRegOperand_writeAcc dst v w
  | ldi addr dst =>
    simp only [exec, execLdi, State.regOperand_writeAcc]
    exact State.load_writeAcc h fun w => s.writeRegOperand_writeAcc dst v w
  | pop dst unusedB =>
    simp only [exec, execPop] at h ⊢
    exact State.pop_writeAcc h fun w r => r.writeRegOperand_writeAcc dst v w
  | ret unusedA unusedB =>
    simp only [exec, execRet] at h ⊢
    exact State.pop_writeAcc h fun _ _ => rfl
  | dr src addr =>
    simp only [exec, execDr, State.regOperand_writeAcc]
    exact State.store_writeAcc h fun _ => rfl
  | sti src addr =>
    simp only [exec, execSti, State.regOperand_writeAcc]
    exact State.store_writeAcc h fun _ => rfl
  | psh src unusedB =>
    simp only [exec, execPsh, State.regOperand_writeAcc]
    exact State.push_writeAcc h fun _ => rfl
  | call target unusedB =>
    simp only [exec, execCall] at h ⊢
    exact State.push_writeAcc h fun _ => rfl
  | lc imm dst =>
    cases h
    exact congrArg Outcome.next (s.writeRegOperand_writeAcc dst v imm)
  | cpy src dst =>
    cases h
    simp only [exec, execCpy, State.regOperand_writeAcc, State.writeRegOperand_writeAcc]
  | jmp | jmr | movsp =>
    cases h
    rfl
  | cmp | cmr =>
    cases h
    simp only [exec, execCmp, execCmr, State.regOperand_writeAcc]
    split <;> rfl
  | or | and | xor | nand | nor | not | add | sub | mul | div | exp | gt | lt | eq | ne | ge | le =>
    exact absurd rfl hi

/-! ### Steps -/

theorem stepWritesAcc_iff_of_decode_ok {i : Instr} (hr : s.run = .running) (hf : s.fetchFits)
    (hd : decode s.cfg s.fetchWord = .ok i) : StepWritesAcc s ↔ writtenReg i = some 15 := by
  simp only [StepWritesAcc, hr, hf, hd, true_and, Except.ok.injEq, exists_eq_left']

theorem not_stepWritesAcc_of_decode_error {e : DecodeError} (hd : decode s.cfg s.fetchWord = .error e) :
    ¬ StepWritesAcc s := by
  rintro ⟨-, -, i, hok, -⟩
  rw [hd] at hok
  cases hok

/-- A step, and the same step after a write of the accumulator: both answer the same state, or states that
still differ by that write, or the same refusal. The write changes nothing that the fetch and the decoder read. -/
theorem step_writeAcc (s : State) (v : Word) :
    (StepWritesAcc s ∧ ∃ t, step s = .next t ∧ step (s.writeAcc v) = .next t) ∨
    (¬ StepWritesAcc s ∧ ∃ t, step s = .next t ∧ step (s.writeAcc v) = .next (t.writeAcc v) ∧
      t.readReg 15 = s.readReg 15) ∨
    (∃ m, step s = .refused (.reservedBits m) ∧ step (s.writeAcc v) = .refused (.reservedBits m)) := by
  obtain ⟨hr, he⟩ | ⟨hr, hf, he⟩ | ⟨i, hr, hf, hd, he⟩ | ⟨op, hr, hf, hd, he⟩ | ⟨m, hr, hf, hd, he⟩ :=
    step_cases s
  · refine .inr (.inl ⟨?_, s, he, step_of_halted hr, rfl⟩)
    rintro ⟨hrun, -, -⟩
    exact absurd (hr.symm.trans hrun) (by decide)
  · refine .inr (.inl ⟨?_, s.haltEndOfProgram, he, step_of_not_fetchFits hr hf, rfl⟩)
    rintro ⟨-, hfits, -⟩
    exact hf hfits
  · have he' : step (s.writeAcc v) = exec i (s.advancePc.writeAcc v) := step_of_decode_ok hr hf hd
    obtain ⟨t, ht⟩ := exec_answers_next i s.advancePc
    have hiff := stepWritesAcc_iff_of_decode_ok hr hf hd
    by_cases hi : writtenReg i = some 15
    · exact .inl ⟨hiff.mpr hi, t, he.trans ht, (he'.trans (exec_writeAcc_of_written _ v hi)).trans ht⟩
    · exact .inr (.inl ⟨mt hiff.mp hi, t, he.trans ht, he'.trans (exec_writeAcc_of_not_written hi ht),
        (exec_readReg_of_not_written ht hi).trans (s.readReg_advancePc 15)⟩)
  · exact .inr (.inl ⟨not_stepWritesAcc_of_decode_error hd, s.advancePc.haltUnknownOpcode op, he,
      step_of_unknownOpcode hr hf hd, rfl⟩)
  · exact .inr (.inr ⟨m, he, step_of_reservedBits hr hf hd⟩)

/-- The relational step lemma of R8: what a step answers on two states that agree but for the accumulator. -/
theorem step_agreeButAcc (h : AgreeButAcc s s') :
    (∃ t t', step s = .next t ∧ step s' = .next t' ∧ AgreeButAcc t t' ∧
      (StepWritesAcc s → t'.readReg 15 = t.readReg 15) ∧
      (¬ StepWritesAcc s → t.readReg 15 = s.readReg 15 ∧ t'.readReg 15 = s'.readReg 15)) ∨
    (∃ m, step s = .refused (.reservedBits m) ∧ step s' = .refused (.reservedBits m)) := by
  obtain ⟨v, rfl⟩ := agreeButAcc_iff.mp h
  obtain ⟨hw, t, ht, ht'⟩ | ⟨hw, t, ht, ht', hacc⟩ | hrefused := step_writeAcc s v
  · exact .inl ⟨t, t, ht, ht', .refl t, fun _ => rfl,
      fun hn => absurd hw hn⟩
  · exact .inl ⟨t, t.writeAcc v, ht, ht', agreeButAcc_iff.mpr ⟨v, rfl⟩, fun hy => absurd hy hw,
      fun _ => ⟨hacc, by simp only [State.readReg_writeAcc_same]⟩⟩
  · exact .inr hrefused

/-- Settles O54: by the relational step lemma, R9's table, and a read of the accumulator after its write. -/
theorem accumulatorIsHidden : Obligations.AccumulatorIsHidden := by
  refine ⟨fun _ _ => step_agreeButAcc, fun i s t h hne => ?_, fun x v => x.core.readReg_writeAcc_same v⟩
  exact mnemonic_mem_of_writtenReg_acc (not_not.mp fun hi => hne (exec_readReg_of_not_written h hi))

end Sys2Proof.Machine

/-! ## Reset values and the clamp (10_state.md R7, R10, R11, R14, R20) -/

namespace Sys2Proof.Machine

open Sys2Proof Host

@[simp] theorem State.readReg_resetWith (c : Config) (i : Fin 16) : (State.resetWith c).readReg i = 0 := by
  simp [State.readReg, State.resetWith]

/-- Settles O1: the register file is all zeros, and the empty memory lists no byte. -/
theorem resetZeroesRegistersAndMemory : Obligations.ResetZeroesRegistersAndMemory :=
  fun c => ⟨State.readReg_resetWith c, Memory.read_nil, rfl, rfl⟩

theorem regIndex_eq_of_ge {f g : RegField} (hf : 14 ≤ f.idx.toNat) (hg : 14 ≤ g.idx.toNat) :
    regIndex f = regIndex g :=
  Fin.ext (by rw [regIndex_val, regIndex_val, min_eq_right hf, min_eq_right hg])

/-- Settles O11: two indexes of 14 or more name one register, so its reads and its writes are the same. -/
theorem clampRule : Obligations.ClampRule := by
  refine ⟨regIndex_val, fun s f g v hf hg => ?_⟩
  rw [State.regOperand, State.regOperand, State.writeRegOperand_eq, State.writeRegOperand_eq,
    regIndex_eq_of_ge hf hg]
  exact ⟨rfl, rfl⟩

end Sys2Proof.Machine

/-! ## Memory words, the fetch, the signed read and the block load (20_memory.md R24 to R36, 70_reset_and_hazards.md
R113) -/

namespace Sys2Proof.Machine

open Sys2Proof Host

/-! ### A word read after it is written -/

/-- Byte `k` of a stored word, counted from its most significant byte (R24). -/
theorem Memory.read_writeWord_add_toNat (m : Memory) (a : Nat) (v : Word) {k : Nat} (hk : k < 4) :
    ((m.writeWord a v).read (a + k)).toNat = v.toNat / 2 ^ (8 * (3 - k)) % 2 ^ 8 := by
  rw [Memory.read_writeWord_slice, if_pos (by omega), Nat.add_sub_cancel_left, slice_toNat]

@[simp] theorem Memory.readWord_writeWord_same (m : Memory) (a : Nat) (v : Word) :
    (m.writeWord a v).readWord a = v := by
  have h0 := m.read_writeWord_add_toNat a v (k := 0) (by decide)
  have h1 := m.read_writeWord_add_toNat a v (k := 1) (by decide)
  have h2 := m.read_writeWord_add_toNat a v (k := 2) (by decide)
  have h3 := m.read_writeWord_add_toNat a v (k := 3) (by decide)
  have hv := v.isLt
  apply BitVec.eq_of_toNat_eq
  rw [Memory.readWord_toNat, h1, h2, h3]
  simp only [Nat.add_zero] at h0
  omega

/-- Settles O38: a word is its four bytes as arithmetic, and a store puts byte `k` of the word at `a + k`. -/
theorem wordsAreBigEndian : Obligations.WordsAreBigEndian := by
  intro m a v
  have hbyte {k : Nat} (hk : k < 4) := m.read_writeWord_add_toNat a v hk
  refine ⟨?_, ?_, hbyte (k := 1) (by decide), hbyte (k := 2) (by decide), ?_, m.readWord_writeWord_same a v,
    fun b => m.read_writeWord_outside a b v⟩
  · rw [Memory.readWord_toNat]; ring
  · have hv : v.toNat / 2 ^ 24 < 2 ^ 8 := by have := v.isLt; omega
    exact (hbyte (k := 0) (by decide)).trans (Nat.mod_eq_of_lt hv)
  · simpa using hbyte (k := 3) (by decide)

/-! ### The fetch after a store -/

section Fetch

variable {s t : State} {a : Nat} {v : Word}

/-- Byte `k` of the fetched word is the memory byte at `pc + k` (R25, R40). -/
theorem State.fetchWord_slice (s : State) {k : Nat} (hk : k < 10) :
    s.fetchWord.extractLsb' (8 * (9 - k)) 8 = s.mem.read (s.pc.toNat + k) :=
  s.mem.readInstr_slice s.pc.toNat k hk

/-- A state whose memory is that of `s` with a word stored fetches the stored bytes, wherever its `pc` is. -/
theorem fetchSeesStore_of_mem_eq (hm : t.mem = s.mem.writeWord a v) : FetchSeesStore a v s t := by
  intro k hk
  rw [t.fetchWord_slice hk, hm, Memory.read_writeWord_slice]

end Fetch

theorem exec_call (target unusedB : Word) (s : State) :
    exec (.call target unusedB) s = s.push .call s.pc fun t => t.writePc target := rfl

/-- Settles O39: the fetched word is packed from the ten bytes at `pc`, and the state after each of the four
instructions that store has the old memory with one word written. -/
theorem nextFetchSeesStore : Obligations.NextFetchSeesStore := by
  refine ⟨fun s => ⟨opcodeOf_packWord _ _ _, fieldA_packWord _ _ _, fieldB_packWord _ _ _⟩,
    ?dr, ?sti, ?psh, ?call⟩
  case dr => exact fun s src addr hf => ⟨_, State.store_fits hf, rfl, fetchSeesStore_of_mem_eq rfl⟩
  case sti => exact fun s src addr hf => ⟨_, State.store_fits hf, rfl, fetchSeesStore_of_mem_eq rfl⟩
  case psh => exact fun s src _ hf => ⟨_, State.push_fits hf, rfl, fetchSeesStore_of_mem_eq rfl⟩
  case call =>
    exact fun s target unusedB hf => ⟨_, (exec_call target unusedB s).trans (State.push_fits hf), rfl,
      fetchSeesStore_of_mem_eq rfl⟩

/-! ### The signed read -/

theorem State.readSignedWord_fits {s : State} {a : Word} (hf : s.wordFits a) :
    s.readSignedWord a = some (s.mem.readWord a.toNat).toInt := if_pos hf

theorem State.readSignedWord_not_fits {s : State} {a : Word} (hf : ¬ s.wordFits a) :
    s.readSignedWord a = none := if_neg hf

/-- Settles O40: inside the bounds by the sign bit of the word, which splits its values at `2 ^ 31`. -/
theorem signedReadIsTwosComplement : Obligations.SignedReadIsTwosComplement := by
  refine fun s a => ⟨fun hf => ?_, fun hf => State.readSignedWord_not_fits (Nat.not_le.mpr hf)⟩
  rw [State.readSignedWord_fits hf, BitVec.toInt_eq_toNat_cond]
  constructor
  · intro hlow
    rw [if_pos (by omega)]
  · intro hhigh
    rw [if_neg (by omega)]
    norm_num

/-! ### The block load -/

section Load

variable {x : Session} {off : Word} {bs : List Byte}

theorem portLoad_of_stepped (hs : x.stepped = true) : portLoad off bs x = .refused .loadAfterFirstStep :=
  if_pos hs

theorem portLoad_faults (hs : x.stepped = false) (hf : ¬ x.core.fits off bs.length) :
    portLoad off bs x = .fault (.hostLoad off bs.length) := by
  rw [portLoad, if_neg (by simp [hs]), if_neg hf]

theorem portLoad_fits (hs : x.stepped = false) (hf : x.core.fits off bs.length) :
    portLoad off bs x = .next { x with core := x.core.writeMem (x.core.mem.writeBytes off.toNat bs) } := by
  rw [portLoad, if_neg (by simp [hs]), if_pos hf]

end Load

/-- Byte `k` of a block stands at `a + k` after the block is written (R30). -/
theorem Memory.read_writeBytes_add (m : Memory) (a : Nat) (bs : List Byte) {k : Nat} (hk : k < bs.length) :
    (m.writeBytes a bs).read (a + k) = bs[k] := by
  rw [Memory.read_writeBytes, if_pos (by omega), Nat.add_sub_cancel_left, List.getD_eq_getElem _ _ hk]

theorem Memory.read_writeBytes_outside (m : Memory) (a : Nat) (bs : List Byte) {b : Nat}
    (h : b < a ∨ a + bs.length ≤ b) : (m.writeBytes a bs).read b = m.read b := by
  rw [Memory.read_writeBytes, if_neg (by omega)]

/-- Settles O42: the three answers of the port, and a read inside and outside the block it writes. -/
theorem loadBlockAllOrNothing : Obligations.LoadBlockAllOrNothing := by
  refine fun x off bs => ⟨portLoad_of_stepped, fun hs hf => portLoad_faults hs (Nat.not_le.mpr hf),
    fun hs hf => ?_⟩
  exact ⟨_, portLoad_fits hs hf, hs, fun _ => x.core.mem.read_writeBytes_add off.toNat bs,
    fun _ => x.core.mem.read_writeBytes_outside off.toNat bs, fun _ => rfl, ⟨rfl, rfl, rfl⟩, rfl, rfl⟩

end Sys2Proof.Machine

/-! ## The encoding: decode and encode are inverse, and what the decoder rejects (30_encoding.md R40 to R46) -/

namespace Sys2Proof

variable {c : Config} {w : InstrWord} {i : Instr} {m : Mnemonic} {a b : Word}

/-! ### The decoder, answer by answer -/

theorem Instr.wellFormed_of_ignore (h : c.reservedPolicy = .ignore) (i : Instr) : i.wellFormed c = true := by
  simp only [Instr.wellFormed, h]

theorem decode_of_lookup_eq_some (hl : c.opcodes.lookup (opcodeOf w) = some m)
    (hw : (instrOf m (fieldA w) (fieldB w)).wellFormed c = true) :
    decode c w = .ok (instrOf m (fieldA w) (fieldB w)) := by
  simp only [decode, hl, if_pos hw]

/-- The word packed from a mnemonic's opcode and two fields decodes to what the mnemonic makes of the fields. -/
theorem decode_packWord (hinj : c.opcodes.injective = true) (hw : (instrOf m a b).wellFormed c = true) :
    decode c (packWord (c.opcodes.get m) a b) = .ok (instrOf m a b) := by
  have hl : c.opcodes.lookup (opcodeOf (packWord (c.opcodes.get m) a b)) = some m := by
    rw [opcodeOf_packWord, OpcodeMap.lookup_get hinj]
  simpa only [fieldA_packWord, fieldB_packWord] using
    decode_of_lookup_eq_some hl (by rwa [fieldA_packWord, fieldB_packWord])

/-- What is decoded is a well-formed instruction, made of the fields by the mnemonic of the opcode. -/
theorem decode_ok_cases (h : decode c w = .ok i) :
    ∃ m, c.opcodes.lookup (opcodeOf w) = some m ∧ i = instrOf m (fieldA w) (fieldB w) ∧
      i.wellFormed c = true := by
  obtain ⟨-, hd⟩ | ⟨m, hl, hw, hd⟩ | ⟨m, -, -, hd⟩ := decode_cases c w <;> rw [hd] at h
  · cases h
  · cases h
    exact ⟨m, hl, rfl, hw⟩
  · cases h

theorem decode_eq_unknownOpcode_iff (c : Config) (w : InstrWord) :
    decode c w = .error (.unknownOpcode (opcodeOf w)) ↔ c.opcodes.lookup (opcodeOf w) = none :=
  ⟨lookup_eq_none_of_decode_unknownOpcode, fun hl => by simp only [decode, hl]⟩

theorem decode_ne_reservedBits_of_ignore (h : c.reservedPolicy = .ignore) (w : InstrWord) (m : Mnemonic) :
    decode c w ≠ .error (.reservedBits m) := by
  intro he
  obtain ⟨-, hd⟩ | ⟨n, -, -, hd⟩ | ⟨n, -, hw, -⟩ := decode_cases c w
  · rw [hd] at he; cases he
  · rw [hd] at he; cases he
  · rw [Instr.wellFormed_of_ignore h] at hw; cases hw

/-! ### Encode and decode are inverse -/

/-- An instruction is made of its mnemonic and its two operand fields, whichever instruction it is (R43). -/
theorem instrOf_operands : ∀ i : Instr, instrOf i.mnemonic i.operandA i.operandB = i
  | .ld addr dst => Laws.FieldsRebuild.ld addr dst
  | .lc imm dst => Laws.FieldsRebuild.lc imm dst
  | .dr src addr => Laws.FieldsRebuild.dr src addr
  | .cpy src dst => Laws.FieldsRebuild.cpy src dst
  | .or ra rb => Laws.FieldsRebuild.or ra rb
  | .and ra rb => Laws.FieldsRebuild.and ra rb
  | .xor ra rb => Laws.FieldsRebuild.xor ra rb
  | .nand ra rb => Laws.FieldsRebuild.nand ra rb
  | .nor ra rb => Laws.FieldsRebuild.nor ra rb
  | .not ra unusedB => Laws.FieldsRebuild.not ra unusedB
  | .add ra rb => Laws.FieldsRebuild.add ra rb
  | .sub ra rb => Laws.FieldsRebuild.sub ra rb
  | .mul ra rb => Laws.FieldsRebuild.mul ra rb
  | .div ra rb => Laws.FieldsRebuild.div ra rb
  | .exp ra rb => Laws.FieldsRebuild.exp ra rb
  | .jmp target unusedB => Laws.FieldsRebuild.jmp target unusedB
  | .jmr off unusedB => Laws.FieldsRebuild.jmr off unusedB
  | .cmp cond target => Laws.FieldsRebuild.cmp cond target
  | .cmr cond off => Laws.FieldsRebuild.cmr cond off
  | .psh src unusedB => Laws.FieldsRebuild.psh src unusedB
  | .pop dst unusedB => Laws.FieldsRebuild.pop dst unusedB
  | .movsp off unusedB => Laws.FieldsRebuild.movsp off unusedB
  | .call target unusedB => Laws.FieldsRebuild.call target unusedB
  | .ret unusedA unusedB => Laws.FieldsRebuild.ret unusedA unusedB
  | .gt ra rb => Laws.FieldsRebuild.gt ra rb
  | .lt ra rb => Laws.FieldsRebuild.lt ra rb
  | .eq ra rb => Laws.FieldsRebuild.eq ra rb
  | .ne ra rb => Laws.FieldsRebuild.ne ra rb
  | .ge ra rb => Laws.FieldsRebuild.ge ra rb
  | .le ra rb => Laws.FieldsRebuild.le ra rb
  | .ldi addr dst => Laws.FieldsRebuild.ldi addr dst
  | .sti src addr => Laws.FieldsRebuild.sti src addr

theorem encode_instrOf (c : Config) (m : Mnemonic) (a b : Word) :
    encode c (instrOf m a b) = packWord (c.opcodes.get m) a b := by
  rw [encode, instrOf_mnemonic, instrOf_operandA, instrOf_operandB]

theorem decode_encode (hinj : c.opcodes.injective = true) (hi : i.wellFormed c = true) :
    decode c (encode c i) = .ok i := by
  simpa only [encode, instrOf_operands] using
    decode_packWord (m := i.mnemonic) (a := i.operandA) (b := i.operandB) hinj (by rwa [instrOf_operands])

theorem encode_of_decode_ok (h : decode c w = .ok i) : encode c i = w := by
  obtain ⟨m, hl, rfl, -⟩ := decode_ok_cases h
  rw [encode_instrOf, OpcodeMap.get_of_lookup hl, packWord_fields]

theorem decodeBytes_bytesOfWord (h : decode c w = .ok i) : decodeBytes c (bytesOfWord w) = .ok i := by
  simp only [decodeBytes, wordOfBytes_bytesOfWord, h]

theorem Config.injective_of_wellFormed (h : c.wellFormed = true) : c.opcodes.injective = true := by
  simp only [Config.wellFormed, Bool.and_eq_true] at h
  obtain ⟨⟨hinj, -⟩, -⟩ := h
  exact hinj

/-- Settles O5: the fields of an instruction make it again, and its ten bytes make its word again. -/
theorem decodeOfEncodeIsIdentity : Obligations.DecodeOfEncodeIsIdentity := fun _ _ hc hi =>
  have hd := decode_encode (Config.injective_of_wellFormed hc) hi
  ⟨hd, decodeBytes_bytesOfWord hd⟩

/-- Settles O6: the opcode found is the mnemonic's, and a word is its opcode and its two fields. -/
theorem encodeOfDecodeIsIdentity : Obligations.EncodeOfDecodeIsIdentity := by
  intro c w i h
  obtain ⟨m, -, -, hw⟩ := decode_ok_cases h
  exact ⟨encode_of_decode_ok h, hw⟩

/-- Settles O7: the packed word is looked up by its opcode alone, and under `ignore` every answer is well formed. -/
theorem opcodeAloneSelects : Obligations.OpcodeAloneSelects := fun _ _ _ _ hinj hp =>
  decode_packWord hinj (Instr.wellFormed_of_ignore hp _)

/-- Settles O8: the decoder rejects so exactly when the lookup finds no mnemonic. -/
theorem unknownOpcodeExactlyOutsideMap : Obligations.UnknownOpcodeExactlyOutsideMap := fun c w =>
  (decode_eq_unknownOpcode_iff c w).trans (c.opcodes.lookup_eq_none _)

/-- Settles O60: the ten bytes are packed as opcode and fields, which are read back. -/
theorem tenBytesDecodeToFields : Obligations.TenBytesDecodeToFields := fun _ _ _ _ _ _ _ _ _ _ =>
  ⟨_, rfl, opcodeOf_packWord _ _ _, fieldA_packWord _ _ _, fieldB_packWord _ _ _⟩

/-! ### The default map -/

/-- The default map numbers the mnemonics from 1 in the order of the table (R44). -/
theorem OpcodeMap.default_all_get :
    Mnemonic.all.map OpcodeMap.default.get = (List.range' 1 0x20).map (BitVec.ofNat 16) := by decide

theorem OpcodeMap.default_assigned_iff (op : Opcode) :
    (∃ m, OpcodeMap.default.get m = op) ↔ 1 ≤ op.toNat ∧ op.toNat < 0x21 := by
  have hmem : (∃ m, OpcodeMap.default.get m = op) ↔ op ∈ Mnemonic.all.map OpcodeMap.default.get := by
    simp only [List.mem_map, Mnemonic.mem_all, true_and]
  rw [hmem, OpcodeMap.default_all_get, List.mem_map]
  constructor
  · rintro ⟨n, hn, rfl⟩
    rw [List.mem_range'_1] at hn
    rw [BitVec.toNat_ofNat]
    omega
  · exact fun h => ⟨op.toNat, List.mem_range'_1.mpr h, by rw [BitVec.ofNat_toNat, BitVec.setWidth_eq]⟩

/-- Settles O9: the assigned opcodes are those of the table, 1 to `0x20`. -/
theorem defaultMapUnassignedRange : Obligations.DefaultMapUnassignedRange := by
  intro op
  have hassigned := OpcodeMap.default_assigned_iff op
  calc Config.default.opcodes.lookup op = none
      ↔ ∀ m, OpcodeMap.default.get m ≠ op := OpcodeMap.lookup_eq_none _ op
    _ ↔ ¬ ∃ m, OpcodeMap.default.get m = op := not_exists.symm
    _ ↔ op.toNat = 0 ∨ 0x21 ≤ op.toNat := by rw [hassigned]; omega

/-- Settles O3: the table's numbers in the table's order, R2's three constraints on them, and the reset state's
parameters. -/
theorem defaultParametersAreTheTable : Obligations.DefaultParametersAreTheTable :=
  ⟨OpcodeMap.default_all_get, by decide, rfl, rfl⟩

/-- Settles O4: each word by evaluating the decoder on it. -/
theorem sampleWordsDecode : Obligations.SampleWordsDecode :=
  ⟨by decide, by decide, by decide, by decide, by decide, by decide⟩

end Sys2Proof

/-! ## What an instruction ignores (10_state.md R7, 30_encoding.md R42, R46) -/

namespace Sys2Proof.Machine

open Sys2Proof Host

@[simp] theorem State.writeRegOperand_canonicalField (s : State) (f : RegField) (v : Word) :
    s.writeRegOperand (canonicalField f) v = s.writeRegOperand f v := by
  rw [State.writeRegOperand_eq, regIndex_canonicalField, State.writeRegOperand_eq]

/-- An instruction reads a register field only through the register it names, and its unused fields not at all. -/
theorem exec_canonicalInstr (i : Instr) (s : State) : exec (canonicalInstr i) s = exec i s := by
  cases i with
  | or | and | xor | nand | nor | not =>
    simp only [canonicalInstr, exec, execOr, execAnd, execXor, execNand, execNor, execNot,
      State.regOperand_canonicalField]
  | add | sub | mul | div | exp =>
    simp only [canonicalInstr, exec, execAdd, execSub, execMul, execDiv, execExp,
      State.regOperand_canonicalField]
  | gt | lt | eq | ne | ge | le =>
    simp only [canonicalInstr, exec, execGt, execLt, execEq, execNe, execGe, execLe,
      State.regOperand_canonicalField]
  | ld | lc | cpy | pop | ldi =>
    simp only [canonicalInstr, exec, execLd, execLc, execCpy, execPop, execLdi,
      State.regOperand_canonicalField, State.writeRegOperand_canonicalField]
  | dr | sti | psh =>
    simp only [canonicalInstr, exec, execDr, execSti, execPsh, State.regOperand_canonicalField]
  | cmp | cmr => simp only [canonicalInstr, exec, execCmp, execCmr, State.regOperand_canonicalField]
  | jmp | jmr | movsp | call | ret => rfl

/-- Settles O12, by what each group of instructions reads of its two fields. -/
theorem ignoredBitsHaveNoEffect : Obligations.IgnoredBitsHaveNoEffect := exec_canonicalInstr

end Sys2Proof.Machine

/-! ## The dispatcher (30_encoding.md R47 to R54) -/

namespace Sys2Proof.Machine

open Sys2Proof Host

variable {s : State}

/-! ### Running in place -/

/-- A state that a step leaves as it is stays so for any number of steps. -/
theorem core_run_of_step_eq_self (h : step s = .next s) : ∀ k : Nat, Core.run core k s = .next s
  | 0 => rfl
  | k + 1 => by
    have hcore : core.step s = .next s := h
    simp only [Core.run, hcore]
    exact core_run_of_step_eq_self h k

/-- Settles O48: the step of a Halted dispatcher is nothing, so any number of them is. -/
theorem haltedHasNoStep : Obligations.HaltedHasNoStep := fun _ hr =>
  core_run_of_step_eq_self (step_of_halted hr)

theorem addOffset_add_ten_minus_ten (p : Word) : addOffset (p + 10) 0xFFFFFFF6 = p := by
  have hoff : (0xFFFFFFF6 : Word).toInt = -10 := by decide
  have hsum := addOffset_toNat (p + 10) 0xFFFFFFF6
  rw [hoff, BitVec.toNat_add] at hsum
  apply BitVec.eq_of_toNat_eq
  have hp := p.isLt
  have hten : (10 : Word).toNat = 10 := rfl
  omega

theorem exec_jmr (off unusedB : Word) (s : State) :
    exec (.jmr off unusedB) s = .next (s.writePc (addOffset s.pc off)) := rfl

/-- The offset -10 takes back the advance of the fetch (R50, R74). -/
theorem exec_jmr_minus_ten_advancePc (s : State) (u : Word) :
    exec (.jmr 0xFFFFFFF6 u) s.advancePc = .next s := by
  rw [exec_jmr, State.advancePc_pc, addOffset_add_ten_minus_ten]
  rfl

/-- Settles O59: the branch undoes the advance, so the step leaves the state as it is. -/
theorem jmrMinusTenLoopsForever : Obligations.JmrMinusTenLoopsForever := by
  intro s u k hr hf hd
  have hstep : step s = .next s :=
    (step_of_decode_ok hr hf hd).trans (exec_jmr_minus_ten_advancePc s u)
  exact core_run_of_step_eq_self hstep k

/-! ### One step -/

/-- The advance does not wrap where the fetch fits (R50). -/
theorem toNat_pc_add_ten (hf : s.fetchFits) : (s.pc + 10).toNat = s.pc.toNat + 10 := by
  have hten : (10 : Word).toNat = 10 := rfl
  have hmem := s.cfg.memSize.isLt
  have hfits : s.pc.toNat + 10 ≤ s.cfg.memSize.toNat := hf
  rw [BitVec.toNat_add]
  omega

/-- Settles O44: by the decoder's answer, and because `pc + 10` is within a MEM_SIZE of 32 bits. -/
theorem stepRunsDecodedInstruction : Obligations.StepRunsDecodedInstruction := fun _ _ hr hf hd =>
  ⟨step_of_decode_ok hr hf hd, toNat_pc_add_ten hf⟩

theorem haltedWith_enterHalt (s : State) (r : HaltRecord) : HaltedWith r s (s.enterHalt r) :=
  ⟨rfl, rfl, rfl, rfl, rfl, fun _ => rfl, fun _ => rfl⟩

/-- Settles O45: the fetch check fails, and the halt entry writes nothing but the halt record. -/
theorem endOfProgramHalts : Obligations.EndOfProgramHalts := fun s hr hf =>
  ⟨s.haltEndOfProgram, step_of_not_fetchFits hr (Nat.not_le.mpr hf), haltedWith_enterHalt s _, rfl⟩

theorem haltedWith_haltUnknownOpcode_advancePc (s : State) (op : Opcode) :
    HaltedWith ⟨.unknownOpcode, op, s.pc, 0x00000000⟩ s.advancePc (s.advancePc.haltUnknownOpcode op) := by
  have h := haltedWith_enterHalt s.advancePc ⟨.unknownOpcode, op, s.advancePc.instrAddr, 0x00000000⟩
  rw [State.instrAddr_advancePc] at h
  rwa [State.haltUnknownOpcode, State.instrAddr_advancePc]

/-- Settles O46: the lookup finds no mnemonic, and the halt entry follows the advance. -/
theorem unknownOpcodeHalts : Obligations.UnknownOpcodeHalts := by
  intro s hr hf hop
  have hd := (unknownOpcodeExactlyOutsideMap s.cfg s.fetchWord).mpr hop
  exact ⟨_, step_of_unknownOpcode hr hf hd, haltedWith_haltUnknownOpcode_advancePc s _, rfl⟩

/-- Settles O50: the only step that is not a next state is a refusal of reserved bits. -/
theorem stepAlwaysAnswersNext : Obligations.StepAlwaysAnswersNext := by
  intro s hp
  obtain ⟨-, he⟩ | ⟨-, -, he⟩ | ⟨i, -, -, -, he⟩ | ⟨op, -, -, -, he⟩ | ⟨m, -, -, hd, -⟩ := step_cases s
  · exact ⟨s, he⟩
  · exact ⟨_, he⟩
  · obtain ⟨t, ht⟩ := exec_answers_next i s.advancePc
    exact ⟨t, he.trans ht⟩
  · exact ⟨_, he⟩
  · exact absurd hd (decode_ne_reservedBits_of_ignore hp _ m)

/-! ### HALT -/

/-- The fetch at `0xFFFFFFFF` fits in no memory, MEM_SIZE being at most `0xFFFFFFFF` (R1, R47). -/
theorem not_fetchFits_of_pc_allOnes (h : s.pc = 0xFFFFFFFF) : ¬ s.fetchFits := by
  have hpc : (0xFFFFFFFF : Word).toNat = 0xFFFFFFFF := rfl
  have hmem := s.cfg.memSize.isLt
  rw [State.fetchFits, State.fits, h]
  omega

/-- Settles O58: the jump keeps the dispatcher running, and the fetch check of the next step fails. -/
theorem haltPseudoInstructionEndsRun : Obligations.HaltPseudoInstructionEndsRun := fun s _ hr =>
  have hf : ¬ (s.writePc 0xFFFFFFFF).fetchFits := not_fetchFits_of_pc_allOnes rfl
  ⟨s.writePc 0xFFFFFFFF, _, rfl, step_of_not_fetchFits hr hf, haltedWith_enterHalt _ _⟩

end Sys2Proof.Machine

/-! ## Data movement (41_data_movement.md R55 to R58)

LC's opcode, the effect of each state update as the statements put it, what a checked access answers, and the
four instructions. -/

namespace Sys2Proof

/-- Every map that meets R2 gives LC the source's opcode. -/
theorem Config.lc_of_wellFormed {c : Config} (h : c.wellFormed = true) : c.opcodes.lc = 0x0002 := by
  simp only [Config.wellFormed, OpcodeMap.lcFixed, Bool.and_eq_true, beq_iff_eq] at h
  obtain ⟨⟨-, hlc⟩, -⟩ := h
  exact hlc

theorem encode_lc (c : Config) (imm : Word) (dst : RegField) :
    encode c (.lc imm dst) = c.opcodes.lc ++ imm ++ (dst.rsv ++ dst.idx) := rfl

end Sys2Proof

namespace Sys2Proof.Machine

open Sys2Proof Host

variable {s : State} {m : Mnemonic} {a v : Word}

/-! ### The whole effect of a register write, a word store and a MemoryFault -/

theorem regResult_writeReg (s : State) (i : Fin 16) (v : Word) : RegResult i v s (s.writeReg i v) :=
  ⟨⟨s.readReg_writeReg_same i v, fun _ hj => s.readReg_writeReg_other hj v⟩, fun _ => rfl, ⟨rfl, rfl, rfl⟩,
    rfl, rfl⟩

theorem regResult_writeRegOperand (s : State) (f : RegField) (v : Word) :
    RegResult (regIndex f) v s (s.writeRegOperand f v) :=
  regResult_writeReg s (regIndex f) v

theorem wordStored_writeMem_writeWord (s : State) (a : Nat) (v : Word) :
    WordStored a v s (s.writeMem (s.mem.writeWord a v)) := by
  refine ⟨?_, ?_, ?_, ?_, fun b => s.mem.read_writeWord_outside a b v⟩ <;>
    simp [Memory.read_writeWord]

theorem storeResult_writeMem_writeWord (s : State) (a : Nat) (v : Word) :
    StoreResult a v s (s.writeMem (s.mem.writeWord a v)) :=
  ⟨wordStored_writeMem_writeWord s a v, s.readReg_writeMem _, ⟨rfl, rfl, rfl⟩, rfl, rfl⟩

theorem memoryFaulted_haltMemoryFault (s : State) (m : Mnemonic) (a : Word) :
    MemoryFaulted (s.cfg.opcodes.get m) a s (s.haltMemoryFault m a) :=
  haltedWith_enterHalt s _

/-! ### A checked access at an illegal address (R26, R94) -/

theorem State.load_memoryFaulted {k : Word → State} (ha : s.cfg.memSize.toNat < a.toNat + 4) :
    ∃ t, s.load m a k = .next t ∧ MemoryFaulted (s.cfg.opcodes.get m) a s t :=
  ⟨_, State.load_faults (Nat.not_le.mpr ha), memoryFaulted_haltMemoryFault s m a⟩

theorem State.store_memoryFaulted {k : State → State} (ha : s.cfg.memSize.toNat < a.toNat + 4) :
    ∃ t, s.store m a v k = .next t ∧ MemoryFaulted (s.cfg.opcodes.get m) a s t :=
  ⟨_, State.store_faults (Nat.not_le.mpr ha), memoryFaulted_haltMemoryFault s m a⟩

/-! ### LD, LC, DR, CPY -/

theorem exec_ld (addr : Word) (dst : RegField) (s : State) :
    exec (.ld addr dst) s = s.load .ld addr (s.writeRegOperand dst) := rfl

theorem exec_lc (imm : Word) (dst : RegField) (s : State) :
    exec (.lc imm dst) s = .next (s.writeRegOperand dst imm) := rfl

theorem exec_dr (src : RegField) (addr : Word) (s : State) :
    exec (.dr src addr) s = s.store .dr addr (s.regOperand src) id := rfl

theorem exec_cpy (src dst : RegField) (s : State) :
    exec (.cpy src dst) s = .next (s.writeRegOperand dst (s.regOperand src)) := rfl

/-- Settles O13: the two answers of a load, the word going into the destination or MemoryFault. -/
theorem ldLoadsWord : Obligations.LdLoadsWord := by
  intro s addr dst
  refine ⟨rfl, ?legal, ?illegal⟩ <;> rw [exec_ld]
  case legal => exact fun ha => ⟨_, State.load_fits ha, regResult_writeRegOperand s dst _⟩
  case illegal => exact State.load_memoryFaulted

/-- Settles O14: the opcode by R2's constraint on LC, and the effect is one register write. -/
theorem lcLoadsConstant : Obligations.LcLoadsConstant := by
  intro s imm dst
  refine ⟨fun hc => ?word, _, exec_lc imm dst s, regResult_writeRegOperand s dst imm⟩
  case word => rw [encode_lc, Config.lc_of_wellFormed hc]

/-- Settles O15: the two answers of a store, the word written at field B's address or MemoryFault. -/
theorem drStoresWord : Obligations.DrStoresWord := by
  intro s src addr
  refine ⟨rfl, ?legal, ?illegal⟩ <;> rw [exec_dr]
  case legal => exact fun ha => ⟨_, State.store_fits ha, storeResult_writeMem_writeWord s addr.toNat _⟩
  case illegal => exact State.store_memoryFaulted

/-- Settles O16: the effect is one register write, of the value the source had before it. -/
theorem cpyCopiesRegister : Obligations.CpyCopiesRegister := fun s src dst =>
  ⟨rfl, _, exec_cpy src dst s, regResult_writeRegOperand s dst (s.regOperand src)⟩

end Sys2Proof.Machine

/-! ## Bitwise (42_bitwise.md R59 to R65)

Every one of the six is one write of the accumulator (R59); what is left of a statement is about the bits of the
value written. -/

namespace Sys2Proof.Machine

open Sys2Proof Host

/-- R59's effect, with its frame. -/
theorem regResult_writeAcc (s : State) (v : Word) : RegResult 15 v s (s.writeAcc v) :=
  regResult_writeReg s 15 v

/-- The mask of R63 to R65 cuts no bit of a word. -/
theorem getLsbD_not_of_lt {k : Nat} (v : Word) (hk : k < 32) : (~~~v).getLsbD k = !v.getLsbD k := by
  rw [BitVec.getLsbD_not, decide_eq_true hk, Bool.true_and]

/-! ### The value each instruction writes -/

theorem exec_or (a b : RegField) (s : State) :
    exec (.or a b) s = .next (s.writeAcc (s.regOperand a ||| s.regOperand b)) := rfl

theorem exec_and (a b : RegField) (s : State) :
    exec (.and a b) s = .next (s.writeAcc (s.regOperand a &&& s.regOperand b)) := rfl

theorem exec_xor (a b : RegField) (s : State) :
    exec (.xor a b) s = .next (s.writeAcc (s.regOperand a ^^^ s.regOperand b)) := rfl

theorem exec_nand (a b : RegField) (s : State) :
    exec (.nand a b) s = .next (s.writeAcc (~~~(s.regOperand a &&& s.regOperand b))) := rfl

theorem exec_nor (a b : RegField) (s : State) :
    exec (.nor a b) s = .next (s.writeAcc (~~~(s.regOperand a ||| s.regOperand b))) := rfl

theorem exec_not (a : RegField) (unusedB : Word) (s : State) :
    exec (.not a unusedB) s = .next (s.writeAcc (~~~s.regOperand a)) := rfl

/-! ### OR, AND, XOR, NAND, NOR, NOT -/

/-- Settles O17: one write of the accumulator each, of the word whose bits are the combinations. -/
theorem orAndXorCombineBits : Obligations.OrAndXorCombineBits := by
  intro s a b
  refine ⟨rfl, rfl, rfl, ?or, ?and, ?xor⟩
  case or => exact ⟨_, _, exec_or a b s, regResult_writeAcc s _, fun _ _ => BitVec.getLsbD_or⟩
  case and => exact ⟨_, _, exec_and a b s, regResult_writeAcc s _, fun _ _ => BitVec.getLsbD_and⟩
  case xor => exact ⟨_, _, exec_xor a b s, regResult_writeAcc s _, fun _ _ => BitVec.getLsbD_xor⟩

/-- Settles O18: bit by bit, the complement of what O17 says of AND and OR. -/
theorem nandNorComplementBits : Obligations.NandNorComplementBits := by
  intro s a b
  refine ⟨rfl, rfl, ?nand, ?nor⟩
  case nand =>
    refine ⟨_, _, exec_nand a b s, regResult_writeAcc s _, fun k hk => ?_⟩
    rw [getLsbD_not_of_lt _ hk, BitVec.getLsbD_and]
  case nor =>
    refine ⟨_, _, exec_nor a b s, regResult_writeAcc s _, fun k hk => ?_⟩
    rw [getLsbD_not_of_lt _ hk, BitVec.getLsbD_or]

/-- Settles O19: one write of the accumulator, whose value does not mention field B. -/
theorem notComplementsRegister : Obligations.NotComplementsRegister := fun s a unusedB =>
  ⟨rfl, _, _, exec_not a unusedB s, regResult_writeAcc s _, BitVec.toNat_not⟩

end Sys2Proof.Machine

/-! ## Arithmetic (43_arithmetic.md R66 to R71)

Every one of the five is one write of the accumulator (R66); what is left of a statement is the value of the word
written, as a natural number, for SUB as an integer. -/

namespace Sys2Proof.Machine

open Sys2Proof Host

/-! ### The value of each result word -/

theorem sumWord_toNat (r s : Word) : (sumWord r s).toNat = (r.toNat + s.toNat) % 2 ^ 32 :=
  BitVec.toNat_ofNat _ _

theorem productWord_toNat (r s : Word) : (productWord r s).toNat = r.toNat * s.toNat % 2 ^ 32 :=
  BitVec.toNat_ofNat _ _

theorem differenceWord_toNat (r s : Word) :
    ((differenceWord r s).toNat : Int) = ((r.toNat : Int) - s.toNat) % 2 ^ 32 := by
  have hnonneg : 0 ≤ ((r.toNat : Int) - s.toNat) % 2 ^ 32 := Int.emod_nonneg _ (by decide)
  calc ((differenceWord r s).toNat : Int)
      = ((((r.toNat : Int) - s.toNat) % 2 ^ 32).toNat : Int) := congrArg Nat.cast (BitVec.toNat_ofInt _)
    _ = ((r.toNat : Int) - s.toNat) % 2 ^ 32 := Int.toNat_of_nonneg hnonneg

theorem quotientWord_zero (r : Word) : quotientWord r 0 = r := by
  rw [quotientWord, if_pos rfl, Nat.div_one, BitVec.ofNat_toNat, BitVec.setWidth_eq]

/-- The divisor is not zero, so the quotient is at most the dividend and fits in a word. -/
theorem quotientWord_toNat {s : Word} (r : Word) (hs : s ≠ 0) :
    (quotientWord r s).toNat = r.toNat / s.toNat := by
  have hfits : r.toNat / s.toNat < 2 ^ 32 := (Nat.div_le_self _ _).trans_lt r.isLt
  rw [quotientWord, if_neg hs, BitVec.toNat_ofNat, Nat.mod_eq_of_lt hfits]

/-! ### The power -/

/-- The exponent's lowest bit chooses the factor of one squaring step. -/
theorem squaring_factor_toNat (base : Word) (e : Nat) :
    (if e % 2 = 1 then base else 1).toNat = base.toNat ^ (e % 2) := by
  obtain heven | hodd := Nat.mod_two_eq_zero_or_one e
  · rw [heven, pow_zero]; rfl
  · rw [hodd, if_pos rfl, pow_one]

theorem pow_mod_two_mul_sq_pow_div_two (n e : Nat) : n ^ (e % 2) * (n * n) ^ (e / 2) = n ^ e := by
  rw [← pow_two, ← pow_mul, ← pow_add, Nat.mod_add_div]

/-- Squaring computes the power whenever the exponent has no more bits than there are steps. -/
theorem powerBySquaring_toNat (bits : Nat) (base : Word) (e : Nat) (he : e < 2 ^ bits) :
    (powerBySquaring bits base e).toNat = base.toNat ^ e % 2 ^ 32 := by
  induction bits generalizing base e with
  | zero => rw [Nat.lt_one_iff.mp he]; rfl
  | succ bits ih =>
    have hhalf : e / 2 < 2 ^ bits := by omega
    calc (powerBySquaring (bits + 1) base e).toNat
        = base.toNat ^ (e % 2) * ((base.toNat * base.toNat % 2 ^ 32) ^ (e / 2) % 2 ^ 32) % 2 ^ 32 := by
          rw [powerBySquaring, productWord_toNat, squaring_factor_toNat, ih _ _ hhalf, productWord_toNat]
      _ = base.toNat ^ (e % 2) * (base.toNat * base.toNat) ^ (e / 2) % 2 ^ 32 := by
          rw [← Nat.pow_mod, Nat.mul_mod_mod]
      _ = base.toNat ^ e % 2 ^ 32 := by rw [pow_mod_two_mul_sq_pow_div_two]

theorem powerWord_zero_zero (z : Word) : powerWord z 0 0 = z := if_pos ⟨rfl, rfl⟩

/-- Away from `0^0`, the 32 steps cover the whole exponent. -/
theorem powerWord_toNat {r s : Word} (z : Word) (h : ¬ (r = 0 ∧ s = 0)) :
    (powerWord z r s).toNat = r.toNat ^ s.toNat % 2 ^ 32 := by
  rw [powerWord, if_neg h, powerBySquaring_toNat 32 r s.toNat s.isLt]

/-- With the default EXP_ZERO_ZERO, `0^0` is no exception (D9). -/
theorem powerWord_one_toNat (r s : Word) : (powerWord 1 r s).toNat = r.toNat ^ s.toNat % 2 ^ 32 := by
  by_cases h : r = 0 ∧ s = 0
  · obtain ⟨rfl, rfl⟩ := h
    rw [powerWord_zero_zero]; rfl
  · exact powerWord_toNat 1 h

/-! ### The value each instruction writes -/

theorem exec_add (a b : RegField) (s : State) :
    exec (.add a b) s = .next (s.writeAcc (sumWord (s.regOperand a) (s.regOperand b))) := rfl

theorem exec_sub (a b : RegField) (s : State) :
    exec (.sub a b) s = .next (s.writeAcc (differenceWord (s.regOperand a) (s.regOperand b))) := rfl

theorem exec_mul (a b : RegField) (s : State) :
    exec (.mul a b) s = .next (s.writeAcc (productWord (s.regOperand a) (s.regOperand b))) := rfl

theorem exec_div (a b : RegField) (s : State) :
    exec (.div a b) s = .next (s.writeAcc (quotientWord (s.regOperand a) (s.regOperand b))) := rfl

theorem exec_exp (a b : RegField) (s : State) :
    exec (.exp a b) s =
      .next (s.writeAcc (powerWord s.cfg.expZeroZero (s.regOperand a) (s.regOperand b))) := rfl

/-! ### ADD, MUL, SUB, DIV, EXP -/

/-- Settles O20: one write of the accumulator each, of the sum and of the product. -/
theorem addMulModulo : Obligations.AddMulModulo := by
  intro s a b
  refine ⟨rfl, rfl, ?add, ?mul⟩
  case add => exact ⟨_, _, exec_add a b s, regResult_writeAcc s _, sumWord_toNat _ _⟩
  case mul => exact ⟨_, _, exec_mul a b s, regResult_writeAcc s _, productWord_toNat _ _⟩

/-- Settles O21: one write of the accumulator, of field A's register less field B's. -/
theorem subModulo : Obligations.SubModulo := fun s a b =>
  ⟨rfl, _, _, exec_sub a b s, regResult_writeAcc s _, differenceWord_toNat _ _⟩

/-- Settles O22: one write of the accumulator, of the quotient; a zero divisor acts as 1. -/
theorem divFloorsAndZeroDivisorIsOne : Obligations.DivFloorsAndZeroDivisorIsOne := by
  intro s a b
  refine ⟨rfl, _, _, exec_div a b s, regResult_writeAcc s _, fun hzero => ?zeroDivisor, quotientWord_toNat _⟩
  case zeroDivisor => rw [hzero, quotientWord_zero]

/-- Settles O23: one write of the accumulator, of the power; at `0^0` of EXP_ZERO_ZERO, which is the power when it
is 1. -/
theorem expIsModularPower : Obligations.ExpIsModularPower := by
  intro s a b
  refine ⟨rfl, _, _, exec_exp a b s, regResult_writeAcc s _, ?zeroZero, ?power⟩
  case zeroZero =>
    rintro ⟨ha, hb⟩
    rw [ha, hb, powerWord_zero_zero]
  case power =>
    rintro (hne | hone)
    · exact powerWord_toNat _ hne
    · rw [hone, powerWord_one_toNat]

end Sys2Proof.Machine

/-! ## Control flow (44_control_flow.md R72 to R76)

Every one of the four is one write of `pc`; a branch not taken writes the value `pc` has, so that the two
conditional branches need no case of their own. -/

namespace Sys2Proof.Machine

open Sys2Proof Host

/-- R72's effect, with its frame. -/
theorem pcResult_writePc (s : State) (v : Word) : PcResult v s (s.writePc v) :=
  ⟨rfl, s.readReg_writePc v, fun _ => rfl, ⟨rfl, rfl, rfl⟩, rfl⟩

/-! ### The test of a conditional branch -/

theorem conditionHolds_iff (v : Word) : conditionHolds v = true ↔ v ≠ 0 := bne_iff_ne

/-- A branch, taken or not, is one write of `pc` (R75, R76). -/
theorem branch_eq_writePc (s : State) (v dest : Word) :
    (if conditionHolds v then s.writePc dest else s) = s.writePc (if v = 0 then s.pc else dest) := by
  by_cases hv : v = 0
  · have hnot : ¬ conditionHolds v = true := fun h => (conditionHolds_iff v).mp h hv
    rw [if_neg hnot, if_pos hv]
    rfl
  · rw [if_pos ((conditionHolds_iff v).mpr hv), if_neg hv]

/-! ### The value each instruction gives `pc` -/

theorem exec_jmp (target unusedB : Word) (s : State) :
    exec (.jmp target unusedB) s = .next (s.writePc target) := rfl

theorem exec_cmp (cond : RegField) (target : Word) (s : State) :
    exec (.cmp cond target) s =
      .next (s.writePc (if s.regOperand cond = 0 then s.pc else target)) :=
  congrArg Outcome.next (branch_eq_writePc s _ target)

theorem exec_cmr (cond : RegField) (off : Word) (s : State) :
    exec (.cmr cond off) s =
      .next (s.writePc (if s.regOperand cond = 0 then s.pc else addOffset s.pc off)) :=
  congrArg Outcome.next (branch_eq_writePc s _ (addOffset s.pc off))

/-! ### JMP, JMR, CMP, CMR -/

/-- Settles O24: one write of `pc` each, whose value does not mention field B. -/
theorem jmpJmrSetPc : Obligations.JmpJmrSetPc := by
  intro s a unusedB
  refine ⟨rfl, rfl, ?jmp, ?jmr⟩
  case jmp => exact ⟨_, exec_jmp a unusedB s, pcResult_writePc s a⟩
  case jmr => exact ⟨_, _, exec_jmr a unusedB s, pcResult_writePc s _, addOffset_toNat s.pc a⟩

/-- Settles O25: one write of `pc`, of the target or of the value it has. -/
theorem cmpBranchesIfNonZero : Obligations.CmpBranchesIfNonZero := fun s cond target =>
  ⟨rfl, _, exec_cmp cond target s, pcResult_writePc s _⟩

/-- Settles O26: one write of `pc`, of the value it has if the register is zero, else of the sum. -/
theorem cmrBranchesIfNonZero : Obligations.CmrBranchesIfNonZero := by
  intro s cond off
  refine ⟨rfl, _, _, exec_cmr cond off s, pcResult_writePc s _, fun hzero => if_pos hzero, fun hne => ?taken⟩
  case taken => rw [if_neg hne, addOffset_toNat]

end Sys2Proof.Machine

/-! ## Stack (45_stack.md R77 to R80)

What a push and a pop answer, legal and illegal, with the frame; the three instructions are one of these each, MOVSP
one write of `sp`. PSH followed by POP is the composition of their two statements. -/

namespace Sys2Proof.Machine

open Sys2Proof Host

variable {s t : State} {m : Mnemonic} {v : Word}

/-! ### The two answers of a push -/

/-- The state a legal push hands to the rest of its instruction: the store, then `sp` moved onto it (R78). -/
def State.pushed (s : State) (v : Word) : State :=
  (s.writeMem (s.mem.writeWord s.pushAddr.toNat v)).writeSp s.pushAddr

theorem State.push_eq_pushed {k : State → State} (h : s.wordFits s.pushAddr) :
    s.push m v k = .next (k (s.pushed v)) := State.push_fits h

theorem wordStored_pushed (s : State) (v : Word) : WordStored s.pushAddr.toNat v s (s.pushed v) :=
  wordStored_writeMem_writeWord s s.pushAddr.toNat v

@[simp] theorem State.pushed_sp (s : State) (v : Word) : (s.pushed v).sp = s.pushAddr := rfl
@[simp] theorem State.pushed_pc (s : State) (v : Word) : (s.pushed v).pc = s.pc := rfl

theorem sameRegs_pushed (s : State) (v : Word) : SameRegs s (s.pushed v) := fun _ => rfl

theorem sameControl_pushed (s : State) (v : Word) : SameControl s (s.pushed v) := ⟨rfl, rfl, rfl⟩

theorem State.push_memoryFaulted {k : State → State} (h : s.cfg.memSize.toNat < s.pushAddr.toNat + 4) :
    ∃ t, s.push m v k = .next t ∧ MemoryFaulted (s.cfg.opcodes.get m) s.pushAddr s t :=
  State.store_memoryFaulted h

/-! ### The two answers of a pop -/

/-- A legal pop moves `sp` without a wrap (R79): MEM_SIZE is below 2^32. -/
theorem toNat_sp_add_four (h : s.wordFits s.sp) : (s.sp + 4).toNat = s.sp.toNat + 4 := by
  have hmem := s.cfg.memSize.isLt
  have hfits : s.sp.toNat + 4 ≤ s.cfg.memSize.toNat := h
  bv_omega

theorem State.pop_memoryFaulted {k : Word → State → State} (h : s.cfg.memSize.toNat < s.sp.toNat + 4) :
    ∃ t, s.pop m k = .next t ∧ MemoryFaulted (s.cfg.opcodes.get m) s.sp s t :=
  State.load_memoryFaulted h

/-- Four up from four below is the start, mod 2^32 (R15): what makes a pop undo a push. -/
theorem eq_of_toNat_eq_sub_four_add_four {p q : Word} (h : q.toNat = (p - 4).toNat + 4) : q = p := by
  bv_omega

/-! ### A stored word read back -/

/-- The four bytes of a stored word are that word (R24), whatever state they stand in. -/
theorem readWord_of_wordStored {a : Nat} (h : WordStored a v s t) : t.mem.readWord a = v := by
  obtain ⟨h0, h1, h2, h3, -⟩ := h
  obtain ⟨w0, w1, w2, w3, -⟩ := wordStored_writeMem_writeWord s a v
  calc t.mem.readWord a
      = (s.writeMem (s.mem.writeWord a v)).mem.readWord a := by
        simp only [Memory.readWord, h0, h1, h2, h3, w0, w1, w2, w3]
    _ = v := s.mem.readWord_writeWord_same a v

/-! ### PSH, POP, MOVSP -/

theorem exec_psh (src : RegField) (unusedB : Word) (s : State) :
    exec (.psh src unusedB) s = s.push .psh (s.regOperand src) id := rfl

theorem exec_pop (dst : RegField) (unusedB : Word) (s : State) :
    exec (.pop dst unusedB) s = s.pop .pop fun v t => t.writeRegOperand dst v := rfl

theorem exec_movsp (off unusedB : Word) (s : State) :
    exec (.movsp off unusedB) s = .next (s.writeSp (addOffset s.sp off)) := rfl

/-- Settles O27: the two answers of a push, the register stored below `sp` or MemoryFault. -/
theorem pshStoresBelowSp : Obligations.PshStoresBelowSp := by
  intro s src unusedB
  refine ⟨rfl, ?legal, ?illegal⟩ <;> rw [exec_psh]
  case legal =>
    exact fun hfits => ⟨_, State.push_eq_pushed hfits, wordStored_pushed s _, s.pushed_sp _,
      sameRegs_pushed s _, sameControl_pushed s _, s.pushed_pc _⟩
  case illegal => exact State.push_memoryFaulted

/-- Settles O28: the two answers of a pop, `sp` moved and then one register write, or MemoryFault. -/
theorem popLoadsAtSp : Obligations.PopLoadsAtSp := by
  intro s dst unusedB
  refine ⟨rfl, ?legal, ?illegal⟩ <;> rw [exec_pop]
  case legal =>
    intro hfits
    obtain ⟨hreg, hmem, hcontrol, hpc, hsp⟩ :=
      regResult_writeRegOperand (s.writeSp (s.sp + 4)) dst (s.mem.readWord s.sp.toNat)
    exact ⟨_, State.pop_fits hfits, hreg, (congrArg BitVec.toNat hsp).trans (toNat_sp_add_four hfits),
      hmem, hcontrol, hpc⟩
  case illegal => exact State.pop_memoryFaulted

/-- Settles O29: one write of `sp`, whose value does not mention field B. -/
theorem movspAddsOffset : Obligations.MovspAddsOffset := fun s off unusedB =>
  ⟨rfl, _, exec_movsp off unusedB s, addOffset_toNat s.sp off, rfl, s.readReg_writeSp _, fun _ => rfl,
    rfl, rfl, rfl⟩

/-- Settles O32: the slot the push left at `sp` is the one the pop reads, and the two frames compose. -/
theorem popAfterPshRestoresSp : Obligations.PopAfterPshRestoresSp := by
  intro s src dst u v hfits
  obtain ⟨-, hpsh, -⟩ := pshStoresBelowSp s src u
  obtain ⟨t, hexec, hstored, hsp, hregs, ⟨hcfg, hrun, hhalt⟩, hpc⟩ := hpsh hfits
  have hslot : t.sp.toNat + 4 ≤ t.cfg.memSize.toNat := by rw [hsp, hcfg]; exact hfits
  have hword : t.mem.readWord t.sp.toNat = s.regOperand src := by
    rw [hsp]; exact readWord_of_wordStored hstored
  obtain ⟨-, hpop, -⟩ := popLoadsAtSp t dst v
  obtain ⟨t', hexec', ⟨hdst, hother⟩, hsp', hmem, ⟨hcfg', hrun', hhalt'⟩, hpc'⟩ := hpop hslot
  obtain ⟨-, -, -, -, houtside⟩ := hstored
  have hback : t'.sp = s.sp := eq_of_toNat_eq_sub_four_add_four (by rw [hsp', hsp])
  exact ⟨t, t', hexec, hexec', hback, ⟨hdst.trans hword, fun j hj => (hother j hj).trans (hregs j)⟩,
    fun b hb => (hmem b).trans (houtside b hb), hpc'.trans hpc,
    hcfg'.trans hcfg, hrun'.trans hrun, hhalt'.trans hhalt⟩

end Sys2Proof.Machine

/-! ## Call and return (46_call_return.md R81 to R83)

CALL is a push and RET a pop, each followed by one write of `pc`. The return composes their two statements: what
lies between them reaches the RET only as the `sp` and the four bytes of the slot, so a congruence of the word
read is all it takes beside them. -/

namespace Sys2Proof.Machine

open Sys2Proof Host

/-- A word depends on its own four bytes only (R24). -/
theorem Memory.readWord_congr {m m' : Memory} {a : Nat}
    (h : ∀ b : Nat, a ≤ b → b < a + 4 → m'.read b = m.read b) : m'.readWord a = m.readWord a := by
  have hbyte (k : Nat) (hk : k < 4) : m'.read (a + k) = m.read (a + k) := h (a + k) (by omega) (by omega)
  have hfirst : m'.read a = m.read a := hbyte 0 (by decide)
  rw [Memory.readWord, Memory.readWord, hfirst, hbyte 1 (by decide), hbyte 2 (by decide), hbyte 3 (by decide)]

theorem exec_ret (unusedA unusedB : Word) (s : State) :
    exec (.ret unusedA unusedB) s = s.pop .ret fun v t => t.writePc v := rfl

/-- Settles O30: the two answers of a push, the advanced `pc` stored below `sp` and then the jump, or
MemoryFault. -/
theorem callPushesPcAndJumps : Obligations.CallPushesPcAndJumps := by
  intro s target unusedB
  refine ⟨rfl, ?legal, ?illegal⟩ <;> rw [exec_call]
  case legal =>
    exact fun hfits => ⟨_, State.push_eq_pushed hfits, wordStored_pushed s s.pc, s.pushed_sp s.pc,
      State.writePc_pc _ target, sameRegs_pushed s s.pc, sameControl_pushed s s.pc⟩
  case illegal => exact State.push_memoryFaulted

/-- Settles O31: the two answers of a pop, `sp` moved and then the jump to the popped word, or MemoryFault. -/
theorem retPopsPc : Obligations.RetPopsPc := by
  intro s unusedA unusedB
  refine ⟨rfl, ?legal, ?illegal⟩ <;> rw [exec_ret]
  case legal =>
    intro hfits
    obtain ⟨hpc, hregs, hmem, hcontrol, hsp⟩ :=
      pcResult_writePc (s.writeSp (s.sp + 4)) (s.mem.readWord s.sp.toNat)
    exact ⟨_, State.pop_fits hfits, hpc, (congrArg BitVec.toNat hsp).trans (toNat_sp_add_four hfits),
      hregs, hmem, hcontrol⟩
  case illegal => exact State.pop_memoryFaulted

/-- Settles O33: the slot is legal and unwritten at the RET, so it pops the `pc` that the CALL pushed. -/
theorem retAfterCallReturns : Obligations.RetAfterCallReturns := by
  intro s target u hfits
  obtain ⟨-, hcall, -⟩ := callPushesPcAndJumps s target u
  obtain ⟨t, hexec, hstored, hsp, htarget, -, hcfg, -, -⟩ := hcall hfits
  refine ⟨t, hexec, htarget, fun q ua ub hqsp hqcfg hunwritten => ?_⟩
  have hslot : q.sp.toNat + 4 ≤ q.cfg.memSize.toNat := by rw [hqsp, hqcfg, hsp, hcfg]; exact hfits
  have hword : q.mem.readWord q.sp.toNat = s.pc :=
    calc q.mem.readWord q.sp.toNat
        = q.mem.readWord t.sp.toNat := by rw [hqsp]
      _ = t.mem.readWord t.sp.toNat := Memory.readWord_congr hunwritten
      _ = s.pc := by rw [hsp]; exact readWord_of_wordStored hstored
  obtain ⟨-, hret, -⟩ := retPopsPc q ua ub
  obtain ⟨q', hexec', hpc, hsp', -, -, -⟩ := hret hslot
  exact ⟨q', hexec', hpc.trans hword, eq_of_toNat_eq_sub_four_add_four (by rw [hsp', hqsp, hsp])⟩

end Sys2Proof.Machine

/-! ## Comparison (47_comparison.md R84 to R90)

Every one of the six is one write of the accumulator, of the truth word of a condition on the two registers (R84);
what is left of a statement is that this condition, or for NE, GE and LE its negation, is the one it names. -/

namespace Sys2Proof.Machine

open Sys2Proof Host

/-! ### The truth word -/

theorem truthWord_decide {q p : Prop} [Decidable q] [Decidable p] (h : q ↔ p) :
    truthWord (decide q) = if p then 0xFFFFFFFF else 0x00000000 := by
  by_cases hp : p
  · rw [decide_eq_true (h.mpr hp), if_pos hp]
    rfl
  · rw [decide_eq_false (mt h.mp hp), if_neg hp]
    rfl

theorem truthWord_decide_of_iff_not {q p : Prop} [Decidable q] [Decidable p] (h : q ↔ ¬ p) :
    truthWord (decide q) = if p then 0x00000000 else 0xFFFFFFFF :=
  (truthWord_decide h).trans (ite_not ..)

/-- R84's effect for a condition, with its frame. -/
theorem regResult_writeAcc_truthWord {q p : Prop} [Decidable q] [Decidable p] (s : State) (h : q ↔ p) :
    RegResult 15 (if p then 0xFFFFFFFF else 0x00000000) s (s.writeAcc (truthWord (decide q))) := by
  rw [truthWord_decide h]
  exact regResult_writeAcc s _

/-- R84's effect for the negation of a condition, with its frame. -/
theorem regResult_writeAcc_truthWord_not {q p : Prop} [Decidable q] [Decidable p] (s : State) (h : q ↔ ¬ p) :
    RegResult 15 (if p then 0x00000000 else 0xFFFFFFFF) s (s.writeAcc (truthWord (decide q))) := by
  rw [truthWord_decide_of_iff_not h]
  exact regResult_writeAcc s _

/-- `≤` on words is the unsigned comparison of the naturals, the other way round and negated (R84). -/
theorem le_iff_not_toNat_lt {v w : Word} : v ≤ w ↔ ¬ w.toNat < v.toNat :=
  BitVec.le_def.trans Nat.not_lt.symm

/-! ### The value each instruction writes -/

theorem exec_gt (a b : RegField) (s : State) :
    exec (.gt a b) s = .next (s.writeAcc (truthWord (decide (s.regOperand b < s.regOperand a)))) := rfl

theorem exec_lt (a b : RegField) (s : State) :
    exec (.lt a b) s = .next (s.writeAcc (truthWord (decide (s.regOperand a < s.regOperand b)))) := rfl

theorem exec_eq (a b : RegField) (s : State) :
    exec (.eq a b) s = .next (s.writeAcc (truthWord (decide (s.regOperand a = s.regOperand b)))) := rfl

theorem exec_ne (a b : RegField) (s : State) :
    exec (.ne a b) s = .next (s.writeAcc (truthWord (decide (s.regOperand a ≠ s.regOperand b)))) := rfl

theorem exec_ge (a b : RegField) (s : State) :
    exec (.ge a b) s = .next (s.writeAcc (truthWord (decide (s.regOperand b ≤ s.regOperand a)))) := rfl

theorem exec_le (a b : RegField) (s : State) :
    exec (.le a b) s = .next (s.writeAcc (truthWord (decide (s.regOperand a ≤ s.regOperand b)))) := rfl

/-! ### EQ, NE, GT, LT, GE, LE -/

/-- Settles O34: one write of the accumulator each, NE's condition being the negation of EQ's. -/
theorem eqNeTruthWord : Obligations.EqNeTruthWord := by
  intro s a b
  refine ⟨rfl, rfl, ?eq, ?ne⟩
  case eq => exact ⟨_, exec_eq a b s, regResult_writeAcc_truthWord s Iff.rfl⟩
  case ne => exact ⟨_, exec_ne a b s, regResult_writeAcc_truthWord_not s Iff.rfl⟩

/-- Settles O35: one write of the accumulator each; the order of words is that of their values, and GE and LE are
the negations of LT and GT. -/
theorem orderTruthWord : Obligations.OrderTruthWord := by
  intro s a b
  refine ⟨rfl, rfl, rfl, rfl, ?gt, ?lt, ?ge, ?le⟩
  case gt => exact ⟨_, exec_gt a b s, regResult_writeAcc_truthWord s BitVec.lt_def⟩
  case lt => exact ⟨_, exec_lt a b s, regResult_writeAcc_truthWord s BitVec.lt_def⟩
  case ge => exact ⟨_, exec_ge a b s, regResult_writeAcc_truthWord_not s le_iff_not_toNat_lt⟩
  case le => exact ⟨_, exec_le a b s, regResult_writeAcc_truthWord_not s le_iff_not_toNat_lt⟩

end Sys2Proof.Machine

/-! ## Indirect memory (48_indirect_memory.md R91, R92)

LDI and STI are the load and the store of LD and DR, at the address a register holds. -/

namespace Sys2Proof.Machine

open Sys2Proof Host

theorem exec_ldi (addr dst : RegField) (s : State) :
    exec (.ldi addr dst) s = s.load .ldi (s.regOperand addr) (s.writeRegOperand dst) := rfl

theorem exec_sti (src addr : RegField) (s : State) :
    exec (.sti src addr) s = s.store .sti (s.regOperand addr) (s.regOperand src) id := rfl

/-- Settles O36: the two answers of a load at the address in field A's register. -/
theorem ldiLoadsIndirect : Obligations.LdiLoadsIndirect := by
  intro s addr dst
  refine ⟨rfl, ?legal, ?illegal⟩ <;> rw [exec_ldi]
  case legal => exact fun ha => ⟨_, State.load_fits ha, regResult_writeRegOperand s dst _⟩
  case illegal => exact State.load_memoryFaulted

/-- Settles O37: the two answers of a store at the address in field B's register. -/
theorem stiStoresIndirect : Obligations.StiStoresIndirect := by
  intro s src addr
  refine ⟨rfl, ?legal, ?illegal⟩ <;> rw [exec_sti]
  case legal => exact fun ha => ⟨_, State.store_fits ha, storeResult_writeMem_writeWord s _ _⟩
  case illegal => exact State.store_memoryFaulted

end Sys2Proof.Machine

/-! ## The halting conditions (60_exceptions.md R93 to R101)

An instruction halts exactly when the check of its data address fails; with the fetch check and the opcode lookup
before it, that is everything a running step can answer, and the statements about halts are read off that list. -/

namespace Sys2Proof.Machine

open Sys2Proof Host

variable {i : Instr} {s t : State} {a : Word}

/-! ### MemoryFault in one instruction -/

/-- An instruction whose data address is out of bounds does nothing but raise MemoryFault there (R94). -/
theorem exec_of_not_wordFits (ha : dataAddress i s = some a) (hf : ¬ s.wordFits a) :
    exec i s = .next (s.haltMemoryFault i.mnemonic a) := by
  cases i with
  | ld | ldi =>
    cases ha
    exact State.load_faults hf
  | dr | sti =>
    cases ha
    exact State.store_faults hf
  | psh =>
    cases ha
    exact State.push_faults hf
  | call target unusedB =>
    cases ha
    rw [exec_call]
    exact State.push_faults hf
  | pop dst unusedB =>
    cases ha
    rw [exec_pop]
    exact State.pop_faults hf
  | ret unusedA unusedB =>
    cases ha
    rw [exec_ret]
    exact State.pop_faults hf
  | _ => cases ha

/-- An instruction raises MemoryFault at its data address, or that address is legal, if there is one, and the
dispatcher state and the halt record stay as they are. -/
theorem exec_fault_cases (h : exec i s = .next t) :
    (∃ a, dataAddress i s = some a ∧ ¬ s.wordFits a ∧ t = s.haltMemoryFault i.mnemonic a) ∨
    ((∀ a, dataAddress i s = some a → s.wordFits a) ∧ t.run = s.run ∧ t.halt = s.halt) := by
  by_cases hlegal : ∀ a, dataAddress i s = some a → s.wordFits a
  · right
    cases exec_effect h with
    | writesReg | moves | stores => exact ⟨hlegal, rfl, rfl⟩
    | faults ha hf => exact absurd (hlegal _ ha) hf
  · left
    push Not at hlegal
    obtain ⟨a, ha, hsize⟩ := hlegal
    have hf : ¬ s.wordFits a := Nat.not_le.mpr hsize
    exact ⟨a, ha, hf, Outcome.next.inj (h.symm.trans (exec_of_not_wordFits ha hf))⟩

/-- Settles O47: an instruction with a fault has this one address out of bounds, and one without leaves a running
dispatcher running. -/
theorem memoryFaultExactlyOutOfBounds : Obligations.MemoryFaultExactlyOutOfBounds := by
  intro i s hr
  obtain ⟨t, ht⟩ := exec_answers_next i s
  refine ⟨t, ht, ?_⟩
  obtain ⟨a, ha, hf, rfl⟩ | ⟨hlegal, hrun, -⟩ := exec_fault_cases ht
  · refine ⟨iff_of_true rfl ⟨a, ha, Nat.not_le.mp hf⟩, fun b hb _ => ?_⟩
    cases ha.symm.trans hb
    exact ⟨memoryFaulted_haltMemoryFault s i.mnemonic a, rfl⟩
  · have hillegal {b : Word} (hb : dataAddress i s = some b) : ¬ s.cfg.memSize.toNat < b.toNat + 4 :=
      Nat.not_lt.mpr (hlegal b hb)
    refine ⟨iff_of_false ?_ fun ⟨b, hb, hlt⟩ => hillegal hb hlt, fun b hb hlt => absurd hlt (hillegal hb)⟩
    rw [hrun, hr]
    decide

/-! ### The three halts of a running step -/

/-- The decoder reports the opcode of the word it was given (R51). -/
theorem eq_opcodeOf_of_decode_unknownOpcode {c : Config} {w : InstrWord} {op : Opcode}
    (h : decode c w = .error (.unknownOpcode op)) : op = opcodeOf w := by
  obtain ⟨-, hd⟩ | ⟨m, -, -, hd⟩ | ⟨m, -, -, hd⟩ := decode_cases c w <;> cases hd.symm.trans h
  rfl

/-- Every next state of a running step: one of the three halts, in the order of R100, or the state after an
instruction without a fault. -/
theorem step_running_cases (hr : s.run = .running) (h : step s = .next t) :
    (¬ s.fetchFits ∧ t = s.haltEndOfProgram) ∨
    (s.fetchFits ∧ (∀ m, s.cfg.opcodes.get m ≠ opcodeOf s.fetchWord) ∧
      t = s.advancePc.haltUnknownOpcode (opcodeOf s.fetchWord)) ∨
    (∃ i a, s.fetchFits ∧ decode s.cfg s.fetchWord = .ok i ∧ dataAddress i s.advancePc = some a ∧
      ¬ s.wordFits a ∧ t = s.advancePc.haltMemoryFault i.mnemonic a) ∨
    (∃ i, s.fetchFits ∧ decode s.cfg s.fetchWord = .ok i ∧
      (∀ a, dataAddress i s.advancePc = some a → s.wordFits a) ∧ t.run = .running ∧ t.halt = s.halt) := by
  obtain ⟨hhalted, -⟩ | ⟨-, hf, he⟩ | ⟨i, -, hf, hd, he⟩ | ⟨op, -, hf, hd, he⟩ | ⟨m, -, -, -, he⟩ :=
    step_cases s
  · cases hr.symm.trans hhalted
  · exact .inl ⟨hf, Outcome.next.inj (h.symm.trans he)⟩
  · obtain ⟨a, ha, hout, ht⟩ | ⟨hlegal, hrun, hhalt⟩ := exec_fault_cases (he.symm.trans h)
    · exact .inr (.inr (.inl ⟨i, a, hf, hd, ha, hout, ht⟩))
    · exact .inr (.inr (.inr ⟨i, hf, hd, hlegal, hrun.trans hr, hhalt⟩))
  · obtain rfl := eq_opcodeOf_of_decode_unknownOpcode hd
    exact .inr (.inl ⟨hf, (unknownOpcodeExactlyOutsideMap s.cfg s.fetchWord).mp hd,
      Outcome.next.inj (h.symm.trans he)⟩)
  · cases h.symm.trans he

/-- Settles O49: the four cases of a running step, each with its condition. -/
theorem onlyThreeHaltingConditions : Obligations.OnlyThreeHaltingConditions := by
  intro s t hr h
  obtain ⟨hf, rfl⟩ | ⟨hf, hop, rfl⟩ | ⟨i, a, hf, hd, ha, hout, rfl⟩ | ⟨i, hf, hd, hlegal, hrun, hhalt⟩ :=
    step_running_cases hr h
  · exact .inl ⟨rfl, rfl, Nat.not_le.mp hf⟩
  · exact .inr (.inl ⟨rfl, rfl, hf, hop⟩)
  · exact .inr (.inr (.inl ⟨rfl, rfl, hf, i, a, hd, ha, Nat.not_le.mp hout⟩))
  · exact .inr (.inr (.inr ⟨hrun, hhalt, hf, i, hd, hlegal⟩))

/-- Settles O51: each of the three halts is one halt entry, at the fetch or after the advance, and the entry records
the address the step began at. -/
theorem haltChangesNoRegisterMemoryOrSp : Obligations.HaltChangesNoRegisterMemoryOrSp := by
  intro s t hr h hhalted
  obtain ⟨-, rfl⟩ | ⟨-, -, rfl⟩ | ⟨i, a, -, -, -, -, rfl⟩ | ⟨i, -, -, -, hrun, -⟩ := step_running_cases hr h
  · exact ⟨s.readReg_haltEndOfProgram, fun _ => rfl, rfl, rfl, rfl, (if_pos rfl).symm⟩
  · exact ⟨s.advancePc.readReg_haltUnknownOpcode _, fun _ => rfl, rfl, rfl, s.instrAddr_advancePc,
      (if_neg (by simp)).symm⟩
  · exact ⟨s.advancePc.readReg_haltMemoryFault _ a, fun _ => rfl, rfl, rfl, s.instrAddr_advancePc,
      (if_neg (by simp)).symm⟩
  · cases hrun.symm.trans hhalted

end Sys2Proof.Machine

/-! ## The host's ports (70_reset_and_hazards.md R109 to R114) -/

namespace Sys2Proof.Machine

open Sys2Proof Host

/-! ### Reset -/

/-- Settles O2: the port's state is the reset state of the same parameters, field by field. -/
theorem portResetRestoresEveryField : Obligations.PortResetRestoresEveryField := fun x =>
  ⟨State.readReg_resetWith x.core.cfg, Memory.read_nil, rfl, rfl, rfl, rfl, rfl, rfl, rfl, rfl⟩

theorem inv_resetWith (c : Config) : Inv (State.resetWith c) :=
  ⟨State.resetWith_mem_wf c, rfl, beq_self_eq_true HaltRecord.clear⟩

/-- Settles O56: the empty memory is canonical and lists no address, and the halt record is clear. -/
theorem resetHasInvariant : Obligations.ResetHasInvariant := fun c =>
  ⟨inv_resetWith c, inv_resetWith Config.default⟩

/-! ### Boot -/

/-- Settles O43: boot is the load at address 0 of a session just reset, whose memory is all zeros. -/
theorem bootInstallsProgram : Obligations.BootInstallsProgram := by
  intro x program
  obtain ⟨-, hfault, hload⟩ := loadBlockAllOrNothing (portReset x) 0 program
  have hzero : (0 : Word).toNat = 0 := rfl
  rw [hzero, Nat.zero_add] at hfault hload
  refine ⟨hfault rfl, fun hfits => ?_⟩
  obtain ⟨y, hy, -, hblock, houtside, -, ⟨-, hrun, -⟩, hpc, hsp⟩ := hload rfl hfits
  refine ⟨y, hy, fun k hk => ?block, fun a ha => ?zeros, hpc, hsp, hrun⟩
  case block => rw [← hblock k hk, Nat.zero_add]
  case zeros => exact houtside a (.inr (by omega))

/-! ### `read_mem` -/

@[simp] theorem Memory.length_readBytes (m : Memory) (a n : Nat) : (m.readBytes a n).length = n := by
  rw [Memory.readBytes, List.length_map, List.length_range]

theorem Memory.getElem_readBytes (m : Memory) (a n : Nat) {k : Nat} (hk : k < (m.readBytes a n).length) :
    (m.readBytes a n)[k] = m.read (a + k) := by
  simp only [Memory.readBytes, List.getElem_map, List.getElem_range]

theorem Memory.readBytes_congr {m m' : Memory} (h : ∀ b, m'.read b = m.read b) (a n : Nat) :
    m'.readBytes a n = m.readBytes a n :=
  List.map_congr_left fun k _ => h (a + k)

/-- Settles O41: the bounds check decides between the bytes and the refusal. -/
theorem readMemAnswersBytesInRange : Obligations.ReadMemAnswersBytesInRange := fun x a n =>
  ⟨fun hin => ⟨_, if_pos hin, x.core.mem.length_readBytes a n, fun _ => x.core.mem.getElem_readBytes a n⟩,
    fun hout => if_neg (Nat.not_le.mpr hout)⟩

/-- `read_mem` depends on MEM_SIZE and the bytes only. -/
theorem portReadMem_congr {x y : Session} (hcfg : y.core.cfg = x.core.cfg) (hmem : SameMem x.core y.core)
    (a n : Nat) : portReadMem y a n = portReadMem x a n := by
  rw [portReadMem, portReadMem, hcfg, Memory.readBytes_congr hmem]

/-! ### After a halt -/

theorem portRun_of_halted {x : Session} (hr : x.core.run = .halted) : ∀ fuel, portRun fuel x = .next x
  | 0 => rfl
  | _ + 1 => by simp only [portRun, hr]

/-- Settles O52: the step that halts is precise, a step of a Halted dispatcher is nothing, and so is running on. -/
theorem haltKeepsReadouts : Obligations.HaltKeepsReadouts := by
  intro x y h hhalted
  obtain ⟨-, rfl⟩ | ⟨hr, t, ht, rfl⟩ := portStep_cases h
  · exact ⟨fun _ => rfl, rfl, fun _ _ => rfl, portRun_of_halted hhalted⟩
  · obtain ⟨hregs, hmem, hsp, hcfg, -, -⟩ := haltChangesNoRegisterMemoryOrSp x.core t hr ht hhalted
    exact ⟨hregs, hsp, portReadMem_congr hcfg hmem, portRun_of_halted hhalted⟩

end Sys2Proof.Machine

/-! ## RESERVED_POLICY `refuse` (93_implementation_defined.md I1, I2) -/

namespace Sys2Proof

variable {c : Config} {w : InstrWord} {m : Mnemonic}

theorem Instr.wellFormed_of_refuse (h : c.reservedPolicy = .refuse) (i : Instr) :
    i.wellFormed c = i.reservedZero := by
  simp only [Instr.wellFormed, h]

theorem decode_reservedBits_of_lookup_eq_some (hl : c.opcodes.lookup (opcodeOf w) = some m)
    (hw : (instrOf m (fieldA w) (fieldB w)).wellFormed c = false) :
    decode c w = .error (.reservedBits m) := by
  simp only [decode, hl, hw, Bool.false_eq_true, if_false]

end Sys2Proof

namespace Sys2Proof.Machine

open Sys2Proof Host

theorem exec_ne_refused (i : Instr) (s : State) (r : Refusal) : exec i s ≠ .refused r := by
  intro h
  obtain ⟨t, ht⟩ := exec_answers_next i s
  cases ht.symm.trans h

/-- Settles O10: with the bits zero the word is decoded and its instruction answers a next state; otherwise the
decoder rejects it by name. -/
theorem refusePolicyRefusesReservedBits : Obligations.RefusePolicyRefusesReservedBits := by
  intro s m hr hf hp hl
  rw [← Instr.wellFormed_of_refuse hp]
  cases hw : (instrOf m (fieldA s.fetchWord) (fieldB s.fetchWord)).wellFormed s.cfg with
  | false =>
    exact iff_of_true (step_of_reservedBits hr hf (decode_reservedBits_of_lookup_eq_some hl hw)) rfl
  | true =>
    refine iff_of_false ?_ (by decide)
    rw [step_of_decode_ok hr hf (decode_of_lookup_eq_some hl hw)]
    exact exec_ne_refused _ _ _

end Sys2Proof.Machine
